-- ==== Sys2Proof/Word.lean ====
section
/-! DEFINITION. The block's words and levels (00_scope.md R8, R9; 30_encoding.md R61, R66). -/

namespace Sys2Proof

/-- An 8-bit unsigned value, "Bitfield" (R12). -/
abbrev Byte := BitVec 8

/-- A 10-bit command word `cmd[9:0]` (R61) or response word `rsp[9:0]` (R66). -/
abbrev Word10 := BitVec 10

/-- The level of a line (R9): what a write asks for and what a read returns. -/
inductive Level where
  | low
  | high
deriving DecidableEq, Repr, Inhabited

/-- The block's record of the level it last drove on an output line (R9, R22): a level, or `x` (the spec's `X`), which says
that the level is one of `low`, `high` and is not fixed by the spec. No device ever sees an `x`. -/
inductive Driven where
  | low
  | high
  | x
deriving DecidableEq, Repr, Inhabited

/-- The line backend's answer to one primitive (R44, R45, R46): `ok`, with the level a read returns, or `fail`. The level of
an `ok` that answers a write is read by nothing (DESIGN CHOICE, log 21, safe). -/
inductive Answer where
  | ok (lvl : Level)
  | fail
deriving DecidableEq, Repr, Inhabited

end Sys2Proof
end

