-- ==== Sys2Proof/Syntax.lean ====
section
/-! DEFINITION. The commands (30_encoding.md R61 to R69), the lines and engines (10_state.md R20), and the assembler's lines
(R71, R72), as data. -/

namespace Sys2Proof

/-- One constructor per row of spec/opcode_table.json. Every constructor keeps its word's 8-bit data field, also where the
spec ignores it (R63, R68), so that the 1024 command words and the instructions are in one-to-one correspondence. -/
inductive Instr where
  /-- SHIFT_OUT: serialize `v`, `cmd[7:0]` unchanged (R63, R82). -/
  | shiftOut (v : Byte)
  /-- SHIFT_IN: deserialize one byte; `data` is ignored (R63, R102). -/
  | shiftIn (data : Byte)
  /-- A reserved word with `OP = 0b00`; `data` is ignored (R68). -/
  | reserved00 (data : Byte)
  /-- A reserved word with `OP = 0b11`; `data` is ignored (R68). -/
  | reserved11 (data : Byte)
deriving DecidableEq, Repr

/-- The two engines (R1): the serializer drives the 74HC595-class register, the deserializer reads the 74HC165-class one. -/
inductive Engine where
  | serializer
  | deserializer
deriving DecidableEq, Repr

/-- The six lines the block owns (R20). -/
inductive Line where
  | soData
  | soClk
  | soLatch
  | siData
  | siClk
  | siLatch
deriving DecidableEq, Repr

/-- The five output lines, the only lines a `LineWrite` can name (R22, R43). -/
inductive OutLine where
  | soData
  | soClk
  | soLatch
  | siClk
  | siLatch
deriving DecidableEq, Repr

/-- One line of the assembler (R71) after its text is read, `mirror` being the pseudo-instruction of R72. The operands are
numbers as written, of any size: whether they fit is `AsmLine.WF`. -/
inductive AsmLine where
  | shiftOut (imm : Nat)
  | shiftIn
  | word (imm : Nat)
  | mirror
deriving DecidableEq, Repr

end Sys2Proof
end

