-- ==== Sys2Proof/Config.lean ====
section
/-! DEFINITION. What is fixed for the machine, and the free values: the constant record CFG (10_state.md R30), the named
parameters of 00_scope.md R7, and the constants with no body that stand for what the spec leaves open. -/

namespace Sys2Proof

/-- `PIN_MAP` (R7, R21, R42): the physical pin of each line. Open, and read by no rule, so nothing here reads it but CFG's
pin fields (log 18, safe). -/
opaque Config.pinMap : Line → Nat

/-- `T_TOGGLE_MIN` (R7, R155): the minimum time between two line operations. Open, and read by no rule (log 18, safe). -/
opaque Config.tToggleMin : Nat

/-- The named pins and the polarity of one engine (R30). -/
structure Config.EngineCfg where
  dataPin : Nat
  clkPin : Nat
  latchPin : Nat
  latchActive : Level
deriving DecidableEq, Repr

/-- The constant record `CFG` (R30): "fixed at build, not writable by any command". -/
structure Config.Cfg where
  so : Config.EngineCfg
  si : Config.EngineCfg
  /-- `CFG.clk_idle`, both engines. -/
  clkIdle : Level
  /-- `CFG.si.invert`, the XOR mask of the output transform. -/
  siInvert : Byte
  /-- `CFG.si.align`, the left shift of the output transform. -/
  siAlign : Nat
deriving DecidableEq, Repr

/-- This board's `CFG` (R30). The sequences and the transform are written "with the board's values in place" (R30). -/
def Config.cfg : Config.Cfg where
  so := ⟨Config.pinMap .soData, Config.pinMap .soClk, Config.pinMap .soLatch, .low⟩
  si := ⟨Config.pinMap .siData, Config.pinMap .siClk, Config.pinMap .siLatch, .high⟩
  clkIdle := .low
  siInvert := 0xFF
  siAlign := 3

/-- `INIT_LEVELS` at the spec's default: "When a model is given no value, `INIT_LEVELS` is `X` on every line" (R150, D13;
log 4, safe). `State.resetWith` takes any other. -/
def Config.initLevels (_ : OutLine) : Driven := .x

/-- FREE VALUE. The line backend's answer to the `n`-th primitive since reset where the state lists no answer for it: "a free
input of that primitive, under no law" (R46, U1, U2; log 2, safe). It has no body: nothing can be proved of it. -/
opaque Config.freeAnswer : Nat → Answer

/-- FREE VALUE. What `ACC` holds from the acceptance of a SHIFT_IN to its step 2, which sets it (R64 "ACC = (set at R102 step
2)"; log 6, safe), for a command accepted after `n` primitives. -/
opaque Config.freeAcc : Nat → Byte

end Sys2Proof
end

