-- ==== Sys2Proof/Machine/State.lean ====
section
/-! DEFINITION. The state as plain data (10_state.md), the reasons a step can stop, and the state after reset
(70_reset_and_hazards.md R150, R151). -/

namespace Sys2Proof.Machine

/-- The persistent state: `drv`, the block's record of the level it last drove on each of its five output lines (R22). -/
structure Drv where
  soData : Driven
  soClk : Driven
  soLatch : Driven
  siClk : Driven
  siLatch : Driven
deriving DecidableEq, Repr

/-- `drv[L]` (R22). -/
def Drv.get (d : Drv) : OutLine → Driven
  | .soData => d.soData
  | .soClk => d.soClk
  | .soLatch => d.soLatch
  | .siClk => d.siClk
  | .siLatch => d.siLatch

/-- `drv[L] <- v` (R22). -/
def Drv.set (d : Drv) (L : OutLine) (v : Driven) : Drv :=
  match L with
  | .soData => { d with soData := v }
  | .soClk => { d with soClk := v }
  | .soLatch => { d with soLatch := v }
  | .siClk => { d with siClk := v }
  | .siLatch => { d with siLatch := v }

/-- What a `LineWrite` returns (R44). -/
inductive WriteResult where
  | ok
  | fail
deriving DecidableEq, Repr

/-- One entry of the line trace (R11): `W(L, lvl) -> ok|fail`, or `R(SI_DATA) -> lvl|fail`. -/
inductive TraceEntry where
  | write (L : OutLine) (lvl : Level) (r : WriteResult)
  | read (a : Answer)
deriving DecidableEq, Repr

/-- The session's `op` together with the register that only this operation has (R25): `V` for SHIFT_OUT, `ACC` for SHIFT_IN. -/
inductive SessionRegs where
  | shiftOut (v : Byte)
  | shiftIn (acc : Byte)
deriving DecidableEq, Repr

/-- The session record (R25), which exists only while a command runs. The bit index `I` is "a function of `k` alone" (R26) and
is computed from it (`Session.bitIndex`, DEDUCED, log 8, safe). -/
structure Session where
  /-- `op`, and `V` or `ACC`. -/
  regs : SessionRegs
  /-- The number of the next primitive of the main sequence: the block's program counter. -/
  k : Nat
  /-- The number of the next primitive of the recovery sequence. -/
  rk : Nat
  /-- The first primitive that returned `fail`. -/
  err : Option Nat
deriving DecidableEq, Repr

/-- What the host still has to do (R65, R120, R121, R123). -/
inductive HostOp where
  /-- Issue one command word. -/
  | issue (w : Word10)
  /-- The pseudo-instruction MIRROR (R121), not yet begun. -/
  | mirror
  /-- The second half of a MIRROR whose SHIFT_IN has been issued: look at its response, then SHIFT_OUT or nothing (R121). Only
  the host's own sequences put it here (log 12). -/
  | mirrorWrite
  /-- The orchestrator's loop (R120): MIRROR, "repeated indefinitely, no exit condition". -/
  | pollLoop
deriving DecidableEq, Repr

/-- The machine. `drv` and `session` are the block ("Nothing else is held", 10_state.md). `trace` and `responses` record what it
has shown since reset, oldest first (R11, R65, R66, D23; log 3). `host`, `answers` and `draws` are its surroundings: what the
host has still to issue (log 1), the line backend's next answers (R46; log 2), and how many have been given, the argument of the
free answers that follow the listed ones (log 2). -/
structure State where
  drv : Drv
  session : Option Session
  trace : List TraceEntry
  responses : List Word10
  host : List HostOp
  answers : List Answer
  draws : Nat
deriving DecidableEq, Repr

/-- Why the machine stops. LineError is none of these: it is an outcome the response carries (R130, R131). -/
inductive Fault where
  /-- Raised by every meaning, through `accept`, in a state that holds a session: "a command issued while a session exists [has]
  no step (the host is held)" (R65; U14 "stuck"; log 5). Safe. No step raises it: a step first runs the session to its response. -/
  | hostHeld
deriving DecidableEq, Repr

/-- Why an instruction has no meaning. -/
inductive Refusal where
  /-- Raised by an arm of `exec` whose instruction is not modelled yet. Safe. No arm raises it: every instruction is modelled. -/
  | notModelled (mnemonic : String)
deriving DecidableEq, Repr

/-- The state after reset on a platform whose bring-up leaves the output lines at `init`, the value of the parameter
`INIT_LEVELS` (R150): no session (R151), nothing shown yet, nothing for the host to do, no answer listed (log 1, 2, 3). -/
def State.resetWith (init : OutLine → Driven) : State where
  drv := ⟨init .soData, init .soClk, init .soLatch, init .siClk, init .siLatch⟩
  session := none
  trace := []
  responses := []
  host := []
  answers := []
  draws := 0

/-- The state after reset at the spec's default `INIT_LEVELS` (R150, R151). -/
def State.reset : State := State.resetWith Config.initLevels

end Sys2Proof.Machine
end

