-- ==== Sys2Proof/Machine/Flags.lean ====
section
/-! DEFINITION. The block has no flags and no condition codes (10_state.md R29). A command's outcome is carried by its response
word alone: its status codes (60_exceptions.md R131) and its two fields (30_encoding.md R66, R67). -/

namespace Sys2Proof

/-- The statuses a response can carry; code `0b11` is never produced (R66, R131). -/
inductive Status where
  | ok
  | lineError
  | illegalCommand
deriving DecidableEq, Repr

/-- The status codes (R66, R131). -/
def Status.code : Status → BitVec 2
  | .ok => 0b00#2
  | .lineError => 0b01#2
  | .illegalCommand => 0b10#2

/-- The response word `{STATUS, RDATA}` (R66). -/
def responseWord (st : Status) (rdata : Byte) : Word10 := st.code ++ rdata

/-- `rsp[9:8]` (R66). -/
def rspStatus (r : Word10) : BitVec 2 := r.extractLsb' 8 2

/-- `rsp[7:0]` (R66). -/
def rspData (r : Word10) : Byte := r.extractLsb' 0 8

end Sys2Proof
end

