-- ==== Sys2Proof/Machine/Operands.lean ====
section
/-! DEFINITION. Bits and levels, the bit order of both engines, the accumulator and the output transform
(00_scope.md R9; 10_state.md R20, R26; 20_memory.md R48, R49, R53; 41_shift_in.md R103, R104). -/

namespace Sys2Proof

/-- A bit as a level: 1 is `high`, 0 is `low` (R9). -/
def Level.ofBit (b : Bool) : Level := if b then .high else .low

/-- `bit(r)`: the bit, 0 or 1, of a level (R8, R9). -/
def Level.bit : Level → Nat
  | .low => 0
  | .high => 1

/-- The opposite level. -/
def Level.flip : Level → Level
  | .low => .high
  | .high => .low

/-- The record of a level that was driven (R22). -/
def Driven.ofLevel : Level → Driven
  | .low => .low
  | .high => .high

/-- The engine that owns a line: three each, none shared (R20). -/
def Line.engine : Line → Engine
  | .soData | .soClk | .soLatch => .serializer
  | .siData | .siClk | .siLatch => .deserializer

/-- An output line as a line. -/
def OutLine.line : OutLine → Line
  | .soData => .soData
  | .soClk => .soClk
  | .soLatch => .soLatch
  | .siClk => .siClk
  | .siLatch => .siLatch

/-- The engine that owns an output line (R20). -/
def OutLine.engine (L : OutLine) : Engine := L.line.engine

/-- The clock line of an engine (R20). -/
def Engine.clk : Engine → OutLine
  | .serializer => .soClk
  | .deserializer => .siClk

/-- The latch-enable line of an engine (R20). -/
def Engine.latch : Engine → OutLine
  | .serializer => .soLatch
  | .deserializer => .siLatch

/-- The idle level of an output line (R20's table; for `SO_DATA`, R24). -/
def OutLine.idle : OutLine → Level
  | .soData => .low
  | .soClk => .low
  | .soLatch => .high
  | .siClk => .low
  | .siLatch => .low

/-- `V[i]` as the level the serializer writes in slot `i`: least significant bit first (R48, R81). -/
def valueLevel (v : Byte) (i : Nat) : Level := Level.ofBit (v.getLsbD i)

/-- `ACC | (bit(lvl) << (7 - i))`: the bit read in slot `i` lands in position `7 - i` (R49, R102). -/
def placeBit (acc : Byte) (lvl : Level) (i : Nat) : Byte := acc ||| (BitVec.ofNat 8 lvl.bit <<< (7 - i))

/-- `xform(r) = ((r << 3) & 0xFF) ^ 0xFF`, the shift "computed without loss, then truncated to 8 bits" (R104): eleven bits hold
`r << 3` whole. -/
def xform (r : Byte) : Byte := (((r.setWidth 11 <<< 3) &&& 0xFF#11).setWidth 8) ^^^ 0xFF#8

/-- `trunc_8`, the masking of a host software layer that takes wider values (R53, D7; log 19). -/
def trunc8 (value : Nat) : Byte := BitVec.ofNat 8 value

/-- The slot of SHIFT_OUT's primitive `k`, `(k - 2) div 4` (R26). -/
def outSlot (k : Nat) : Nat := (k - 2) / 4

/-- The slot of SHIFT_IN's primitive `k`, `(k - 2) div 3` (R26). -/
def inSlot (k : Nat) : Nat := (k - 2) / 3

end Sys2Proof
end

