-- ==== Sys2Proof/Machine/Sequences.lean ====
section
/-! DEFINITION. The fixed lists of primitives: the main sequences of SHIFT_OUT (40_shift_out.md R81) and SHIFT_IN
(41_shift_in.md R101) and the recovery sequences (60_exceptions.md R134), each as a function of the primitive's number. -/

namespace Sys2Proof.Machine

/-- A primitive (R10, R43): a write of an output line, or the read of `SI_DATA`, the one input line. -/
inductive Prim where
  | write (L : OutLine) (lvl : Level)
  | read
deriving DecidableEq, Repr

/-- `seq_out(V)[k]`, `k` in 1..35 (R81). A number outside that range, which no session of a run holds, reads as the nearest
end (DESIGN CHOICE, log 9). -/
def seqOut (v : Byte) (k : Nat) : Prim :=
  if k ≤ 1 then .write .soLatch .low
  else if k ≤ 33 then
    match (k - 2) % 4 with
    | 0 => .write .soClk .low
    | 1 => .write .soData (valueLevel v (outSlot k))
    | 2 => .write .soClk .high
    | _ => .write .soData .low
  else if k = 34 then .write .soClk .low
  else .write .soLatch .high

/-- `seq_in[k]`, `k` in 1..26 (R101). A number outside that range reads as the nearest end (DESIGN CHOICE, log 9). -/
def seqIn (k : Nat) : Prim :=
  if k ≤ 1 then .write .siLatch .high
  else if k ≤ 25 then
    match (k - 2) % 3 with
    | 0 => .write .siClk .high
    | 1 => .read
    | _ => .write .siClk .low
  else .write .siLatch .low

/-- The length of SHIFT_OUT's main sequence (R81). -/
def lastOut : Nat := 35

/-- The length of SHIFT_IN's main sequence (R101). -/
def lastIn : Nat := 26

/-- The engine a session's command runs on (R25 `op`). -/
def SessionRegs.engine : SessionRegs → Engine
  | .shiftOut _ => .serializer
  | .shiftIn _ => .deserializer

/-- The number of the last primitive of a session's main sequence (R26). -/
def SessionRegs.last : SessionRegs → Nat
  | .shiftOut _ => lastOut
  | .shiftIn _ => lastIn

/-- Primitive `k` of a session's main sequence (R81, R101). -/
def SessionRegs.prim (r : SessionRegs) (k : Nat) : Prim :=
  match r with
  | .shiftOut v => seqOut v k
  | .shiftIn _ => seqIn k

/-- The session register `I`: the bit index of the current bit slot, a function of `k` alone (R25, R26); none outside the
bit slots, where the spec gives it no value (log 8). -/
def Session.bitIndex (σ : Session) : Option Nat :=
  match σ.regs with
  | .shiftOut _ => if 2 ≤ σ.k ∧ σ.k ≤ 33 then some (outSlot σ.k) else none
  | .shiftIn _ => if 2 ≤ σ.k ∧ σ.k ≤ 25 then some (inSlot σ.k) else none

/-- Write `rk` of the recovery sequence: line and level (R134). A number outside 1..2 reads as the nearest end (log 9). -/
def recoveryWrite (e : Engine) (rk : Nat) : OutLine × Level :=
  match e with
  | .serializer => if rk ≤ 1 then (.soClk, .low) else (.soLatch, .high)
  | .deserializer => if rk ≤ 1 then (.siClk, .low) else (.siLatch, .low)

end Sys2Proof.Machine
end

