-- ==== Sys2Proof/Machine/Trace.lean ====
section
/-! DEFINITION. Readings of a line trace (00_scope.md R11): what it leaves in `drv` (20_memory.md R44), its clock pulses
(R50), and the loopback reading of the serializer's lines (R59). -/

namespace Sys2Proof.Machine

/-- What one entry does to `drv` (R44, R45): a write that returned `ok` records its level, one that returned `fail` records `X`,
a read records nothing. -/
def Drv.record (d : Drv) : TraceEntry → Drv
  | .write L lvl .ok => d.set L (.ofLevel lvl)
  | .write L _ .fail => d.set L .x
  | .read _ => d

/-- What a trace does to `drv`. -/
def Drv.replay (d : Drv) (es : List TraceEntry) : Drv := es.foldl Drv.record d

/-- The number of clock pulses on `clk` in a trace that starts at `d`: the writes `W(clk, high) -> ok` made while `drv[clk]`
is `low` (R50). -/
def clockPulses (clk : OutLine) (d : Drv) : List TraceEntry → Nat
  | [] => 0
  | e :: es =>
    (if e = .write clk .high .ok ∧ d.get clk = .low then 1 else 0) + clockPulses clk (d.record e) es

/-- `decode_out` (R59) from a point where the data line was last recorded as `d` and the last successful write of `SO_CLK` was
`clk`, none where there has been no such write: the levels sampled at the rising edges of `SO_CLK`. -/
def decodeOutFrom (d : Option Driven) (clk : Option Level) : List TraceEntry → List (Option Driven)
  | [] => []
  | .write .soData lvl .ok :: es => decodeOutFrom (some (.ofLevel lvl)) clk es
  | .write .soData _ .fail :: es => decodeOutFrom (some .x) clk es
  | .write .soClk .high .ok :: es =>
    if clk = some .low then d :: decodeOutFrom d (some .high) es else decodeOutFrom d (some .high) es
  | .write .soClk .low .ok :: es => decodeOutFrom d (some .low) es
  | _ :: es => decodeOutFrom d clk es

/-- `decode_out(trace)` (R59); an entry is none where R59's `d` is still undefined (DEDUCED, log 10, safe). -/
def decodeOut (es : List TraceEntry) : List (Option Driven) := decodeOutFrom none none es

/-- `Σ bits[j] << j` (R59), of a list of sampled levels, oldest first; none if one of them is not a level. -/
def lsbFirstValue : List (Option Driven) → Option Nat
  | [] => some 0
  | some .low :: bs => (lsbFirstValue bs).map (2 * ·)
  | some .high :: bs => (lsbFirstValue bs).map (1 + 2 * ·)
  | some .x :: _ => none
  | none :: _ => none

end Sys2Proof.Machine
end

