-- ==== Sys2Proof/Machine/Ops.lean ====
section
/-! DEFINITION. The operations every command is made of: the two line primitives (20_memory.md R44, R45), the response
(30_encoding.md R66), the acceptance of a command (R64, R65), a LineError and its recovery (60_exceptions.md R133 to R137), and
the sequencer, one primitive at a time (10_state.md R26). -/

namespace Sys2Proof.Machine

/-- The line backend's answer to the next primitive: the listed one, or the free value of that primitive (R46; log 2). -/
def State.nextAnswer (s : State) : Answer :=
  match s.answers with
  | a :: _ => a
  | [] => Config.freeAnswer s.draws

/-- The state once the next answer has been given (log 2). -/
def State.answered (s : State) : State := { s with answers := s.answers.tail, draws := s.draws + 1 }

/-- The state once the primitive of entry `e` has been performed: `drv` and the trace record it (R11, R44, R45). -/
def State.perform (s : State) (e : TraceEntry) : State :=
  { s.answered with drv := s.drv.record e, trace := s.trace ++ [e] }

/-- The state once the primitives of these entries have been performed, in this order. -/
def State.performAll (s : State) (es : List TraceEntry) : State := es.foldl State.perform s

/-- The session record replaced: created, changed or destroyed (R25). -/
def State.setSession (s : State) (o : Option Session) : State := { s with session := o }

/-- What a write returns when the backend answers so (R44). -/
def answerResult : Answer → WriteResult
  | .ok _ => .ok
  | .fail => .fail

/-- `LineWrite(L, lvl)` (R44). -/
def lineWrite (L : OutLine) (lvl : Level) (s : State) : WriteResult × State :=
  let r := answerResult s.nextAnswer
  (r, s.perform (.write L lvl r))

/-- `LineRead(SI_DATA)` (R45). -/
def lineRead (s : State) : Answer × State :=
  let a := s.nextAnswer
  (a, s.perform (.read a))

/-- `respond(status, data)`: the response is handed to the host and the session is gone (R10, R25, R27, R66). -/
def respond (st : Status) (rdata : Byte) (s : State) : State :=
  { s.setSession none with responses := s.responses ++ [responseWord st rdata] }

/-- The end of a main sequence whose every primitive returned `ok`: the response OK (R82, R102, R67), with the transformed
accumulator for SHIFT_IN (R104). -/
def respondOk (σ : Session) (s : State) : State :=
  match σ.regs with
  | .shiftOut _ => respond .ok 0x00 s
  | .shiftIn acc => respond .ok (xform acc) s

/-- `raise LineError(k)` (R133), the one exception of the block: `err <- k`, no further primitive of the main sequence, and the
recovery sequence from its first write. Nothing else of the session or the block changes (R140). -/
def raiseLineError (σ : Session) (s : State) : State :=
  s.setSession (some { σ with err := some σ.k, rk := 1 })

/-- `k <- k + 1` after a primitive that returned `ok`, or the response after the last one (R26; log 9). -/
def advance (σ : Session) (s : State) : State :=
  if σ.k < σ.regs.last then s.setSession (some { σ with k := σ.k + 1 }) else respondOk σ s

/-- What the completion of write `k` does to the session's registers: SHIFT_IN's step 2, `ACC <- 0x00`, stands "after
`k = 1`, before `k = 2`" (R101). -/
def SessionRegs.afterWrite (r : SessionRegs) (k : Nat) : SessionRegs :=
  match r with
  | .shiftOut v => .shiftOut v
  | .shiftIn acc => if k = 1 then .shiftIn 0x00 else .shiftIn acc

/-- What the read `k` that returned `lvl` does to the session's registers: `ACC <- ACC | (bit(lvl) << (7 - I))` (R102 step 3b). -/
def SessionRegs.afterRead (r : SessionRegs) (k : Nat) (lvl : Level) : SessionRegs :=
  match r with
  | .shiftOut v => .shiftOut v
  | .shiftIn acc => .shiftIn (placeBit acc lvl (inSlot k))

/-- One primitive of the main sequence (R82, R102). -/
def mainTick (σ : Session) (s : State) : State :=
  match σ.regs.prim σ.k with
  | .write L lvl =>
    match lineWrite L lvl s with
    | (.ok, s') => advance { σ with regs := σ.regs.afterWrite σ.k } s'
    | (.fail, s') => raiseLineError σ s'
  | .read =>
    match lineRead s with
    | (.ok lvl, s') => advance { σ with regs := σ.regs.afterRead σ.k lvl } s'
    | (.fail, s') => raiseLineError σ s'

/-- One write of the recovery sequence (R134), whatever it returns (R135); after the second, the response LINE_ERROR (R137). -/
def recoveryTick (σ : Session) (s : State) : State :=
  let w := recoveryWrite σ.regs.engine σ.rk
  let s' := (lineWrite w.1 w.2 s).2
  if σ.rk < 2 then s'.setSession (some { σ with rk := σ.rk + 1 }) else respond .lineError 0x00 s'

/-- One step of the sequencer: the next primitive of the session, if there is one (R26, R57). -/
def tick (s : State) : State :=
  match s.session with
  | none => s
  | some σ =>
    match σ.err with
    | none => mainTick σ s
    | some _ => recoveryTick σ s

/-- The sequencer, until the session is gone or `n` primitives have been performed. -/
def runSession : Nat → State → State
  | 0, s => s
  | n + 1, s =>
    match s.session with
    | none => s
    | some _ => runSession n (tick s)

/-- The most primitives a command performs before its response (R143). -/
def maxPrimitives : Nat := 37

/-- The session run to its response (R65, R143). -/
def finishSession (s : State) : State := runSession maxPrimitives s

/-- `create session` (R64): `k = 1`, `err = none`; `rk` is at its first write (DEDUCED, log 7). -/
def openSession (r : SessionRegs) (s : State) : State :=
  s.setSession (some { regs := r, k := 1, rk := 1, err := none })

/-- `accept` (R64): only when no session exists; while one exists the host is held, and the command has no step (R65, U14; log 5). -/
def accept (s : State) (run : State → State) : Host.Outcome State Fault Refusal :=
  match s.session with
  | some _ => .fault .hostHeld
  | none => .next (run s)

/-- A command with a session: created, then run to its response, "the whole command" (R64, R65, D17). -/
def runCommand (r : SessionRegs) (s : State) : State := finishSession (openSession r s)

/-- A reserved command: no primitive, no change of `drv`, no session, the response ILLEGAL_COMMAND (R68). -/
def illegalCommand (s : State) : State := respond .illegalCommand 0x00 s

end Sys2Proof.Machine
end

