-- ==== Sys2Proof/Machine/Deserializer.lean ====
section
/-! DEFINITION. The meaning of SHIFT_IN (41_shift_in.md R100 to R111). -/

namespace Sys2Proof.Machine

/-- SHIFT_IN (R102): the 26 primitives of `seq_in`, then the response `{OK, xform(ACC)}`; at the first primitive that fails, the
recovery of R134 and the response `{LINE_ERROR, 0x00}`. The data field is ignored (R63). `ACC` holds a free value until step 2
sets it (log 6). -/
def execShiftIn (_data : Byte) (s : State) : Host.Outcome State Fault Refusal :=
  accept s (runCommand (.shiftIn (Config.freeAcc s.draws)))

end Sys2Proof.Machine
end

