-- ==== Sys2Proof/Machine/Reserved.lean ====
section
/-! DEFINITION. The meanings of the reserved command words (30_encoding.md R68, R69). -/

namespace Sys2Proof.Machine

/-- A word with `OP = 0b00` (R68); its data field is ignored (R63). -/
def execReserved00 (_data : Byte) (s : State) : Host.Outcome State Fault Refusal :=
  accept s illegalCommand

/-- A word with `OP = 0b11` (R68); its data field is ignored (R63). -/
def execReserved11 (_data : Byte) (s : State) : Host.Outcome State Fault Refusal :=
  accept s illegalCommand

end Sys2Proof.Machine
end

