-- ==== Sys2Proof/Machine/Serializer.lean ====
section
/-! DEFINITION. The meaning of SHIFT_OUT (40_shift_out.md R80 to R88). -/

namespace Sys2Proof.Machine

/-- SHIFT_OUT (R82): the 35 writes of `seq_out(V)`, then the response `{OK, 0x00}`; at the first write that fails, the recovery
of R134 and the response `{LINE_ERROR, 0x00}`. `V <- cmd[7:0]` (R63). -/
def execShiftOut (v : Byte) (s : State) : Host.Outcome State Fault Refusal :=
  accept s (runCommand (.shiftOut v))

end Sys2Proof.Machine
end

