-- ==== Sys2Proof/Machine/Dispatch.lean ====
section
/-! DEFINITION. One arm per row of spec/opcode_table.json. -/

namespace Sys2Proof.Machine

def exec (i : Instr) (s : State) : Host.Outcome State Fault Refusal :=
  match i with
  | .shiftOut v => Sys2Proof.Machine.execShiftOut v s
  | .shiftIn data => Sys2Proof.Machine.execShiftIn data s
  | .reserved00 data => Sys2Proof.Machine.execReserved00 data s
  | .reserved11 data => Sys2Proof.Machine.execReserved11 data s

end Sys2Proof.Machine
end

