-- ==== Sys2Proof/WellFormed.lean ====
section
/-! DEFINITION. The checks on what is handed to the block.

An `Instr` needs no check: its one operand is eight bits by its type, every 8-bit value is legal (R82, R63, R68), and every
one of the 1024 command words is exactly one instruction (R69). What can be ill-formed is a number that stands for a word
or an operand before it is one: a command word wider than ten bits (R61), and an assembler operand out of its range (R71). -/

namespace Sys2Proof

/-- A number that is a command word: ten bits and no more (R61, R73). -/
abbrev CommandNumberWF (w : Nat) : Prop := w < 1024

/-- An assembler line whose operand fits: "An assembler refuses an `imm8` outside `0..255`", and `.word` takes an `imm10` (R71);
that a `.word` of 1024 or more is ill-formed is the model's (DESIGN CHOICE, log 11, safe: nothing is issued). -/
def AsmLine.wf : AsmLine → Bool
  | .shiftOut imm => imm < 256
  | .shiftIn => true
  | .word imm => imm < 1024
  | .mirror => true

end Sys2Proof
end

