-- ==== Sys2Proof/Decode.lean ====
section
/-! DEFINITION. Command words to instructions and back (30_encoding.md R61 to R64, R68, R69, R73), and the opcode map as a table. -/

namespace Sys2Proof

/-- The field `OP = cmd[9:8]` of a command word (R61). -/
def opField (w : Word10) : BitVec 2 := w.extractLsb' 8 2

/-- The field `DATA = cmd[7:0]` of a command word (R61). -/
def dataField (w : Word10) : Byte := w.extractLsb' 0 8

/-- The decoder, total on all 1024 command words (R62, R64). -/
def decode (w : Word10) : Instr :=
  if opField w = 0b01#2 then .shiftOut (dataField w)
  else if opField w = 0b10#2 then .shiftIn (dataField w)
  else if opField w = 0b00#2 then .reserved00 (dataField w)
  else .reserved11 (dataField w)

/-- The instruction's `OP` (R62). -/
def Instr.op : Instr → BitVec 2
  | .shiftOut _ => 0b01#2
  | .shiftIn _ => 0b10#2
  | .reserved00 _ => 0b00#2
  | .reserved11 _ => 0b11#2

/-- The instruction's data field (R61). -/
def Instr.data : Instr → Byte
  | .shiftOut v => v
  | .shiftIn d => d
  | .reserved00 d => d
  | .reserved11 d => d

/-- The encoder: `{OP, DATA}` (R61, R62). -/
def encode (i : Instr) : Word10 := i.op ++ i.data

/-- The canonical spelling (R63): a SHIFT_IN carries `cmd[7:0] = 0x00`. The spec names no canonical data field for a reserved
word, so those stay as they are. -/
def Instr.canonical : Instr → Instr
  | .shiftOut v => .shiftOut v
  | .shiftIn _ => .shiftIn 0x00
  | .reserved00 d => .reserved00 d
  | .reserved11 d => .reserved11 d

/-- Why a number is no command. -/
inductive DecodeRefusal where
  /-- The number has a bit above `cmd[9]`: no command word is wider than ten bits (R61). Safe: nothing is run. -/
  | widerThanTenBits (w : Nat)
deriving DecidableEq, Repr

/-- The decoder on any number, refusing by name what is no 10-bit word (R61, R73; log 13). -/
def decodeNumber (w : Nat) : Except DecodeRefusal Instr :=
  if CommandNumberWF w then .ok (decode (BitVec.ofNat 10 w)) else .error (.widerThanTenBits w)

/-- The instruction the decoder reads from an instruction whose bits are `w`, as spec/opcode_table.json numbers them. A command
is one word of one length whatever it says (R61, R73), so `nbits` (the table's ten bits, or the two whole bytes that hold
them) changes nothing (log 13). -/
def decodeTableWord (_nbits w : Nat) : Option Instr :=
  match decodeNumber w with
  | .ok i => some i
  | .error _ => none

/-- A row of the opcode map (R62). -/
structure OpcodeRow where
  mnemonic : String
  pattern : Word10
  mask : Word10
deriving DecidableEq, Repr

/-- The opcode map (R62; spec/opcode_table.json). -/
def opcodeTable : List OpcodeRow :=
  [⟨"RESERVED_00", 0x000, 0x300⟩, ⟨"SHIFT_OUT", 0x100, 0x300⟩, ⟨"SHIFT_IN", 0x200, 0x300⟩, ⟨"RESERVED_11", 0x300, 0x300⟩]

/-- A word belongs to a row when its masked bits are the row's pattern. -/
def OpcodeRow.covers (r : OpcodeRow) (w : Word10) : Bool := w &&& r.mask == r.pattern

/-- The instruction's row of the opcode map. -/
def Instr.row : Instr → OpcodeRow
  | .reserved00 _ => ⟨"RESERVED_00", 0x000, 0x300⟩
  | .shiftOut _ => ⟨"SHIFT_OUT", 0x100, 0x300⟩
  | .shiftIn _ => ⟨"SHIFT_IN", 0x200, 0x300⟩
  | .reserved11 _ => ⟨"RESERVED_11", 0x300, 0x300⟩

end Sys2Proof
end

