-- ==== Sys2Proof/Machine/HostAgent.lean ====
section
/-! DEFINITION. The host: which command it issues next (30_encoding.md R65; 42_host_sequences.md R120 to R123), and the host
software layer's masking (20_memory.md R53). -/

namespace Sys2Proof.Machine

/-- The command word MIRROR issues first: `0x200`, SHIFT_IN in its canonical spelling (R121, R63). -/
def mirrorReadWord : Word10 := 0x200

/-- The command word MIRROR issues second, given the response to its SHIFT_IN: `0x100 | rsp[7:0]` if `rsp[9:8] = OK`, otherwise
nothing (R121). -/
def mirrorWriteWord (rsp : Word10) : Option Word10 :=
  if rspStatus rsp = Status.code .ok then some (0x100#10 ||| (rspData rsp).setWidth 10) else none

/-- The host's next act, when no session exists: the instruction it issues, if any, and the state with that act taken out of
what the host has to do. With nothing to do the host issues nothing (log 1). A MIRROR is two acts, the response to the first
read before the second (R121, R123; log 12); the poll loop does a MIRROR and starts again (R120, R122). -/
def hostIssue (s : State) : Option Instr × State :=
  match s.host with
  | [] => (none, s)
  | .issue w :: rest => (some (decode w), { s with host := rest })
  | .mirror :: rest => (some (decode mirrorReadWord), { s with host := .mirrorWrite :: rest })
  | .mirrorWrite :: rest => ((s.responses.getLast?.bind mirrorWriteWord).map decode, { s with host := rest })
  | .pollLoop :: rest => (some (decode mirrorReadWord), { s with host := .mirrorWrite :: .pollLoop :: rest })

/-- The state in which the host's next act is to issue the command word `w` and no session holds it up; a number that is no
10-bit word cannot be handed over, and changes nothing (log 13, log 14). -/
def placeCommand (s : State) (w : Nat) : State :=
  if CommandNumberWF w then { s with session := none, host := .issue (BitVec.ofNat 10 w) :: s.host } else s

/-- `shift_out(value)` at a host software layer that takes any number: the value is masked to its low 8 bits (R53, D7; log 19). -/
def hostShiftOut (value : Nat) : HostOp := .issue (encode (.shiftOut (trunc8 value)))

/-- `shift_in()` at the same layer: the canonical word (R63). -/
def hostShiftIn : HostOp := .issue (encode (.shiftIn 0x00))

end Sys2Proof.Machine
end

