-- ==== Sys2Proof/Machine/Step.lean ====
section
/-! DEFINITION. One step of the machine (30_encoding.md R65, 20_memory.md R55, R57). -/

namespace Sys2Proof.Machine

/-- One step: a whole command, which is "one indivisible step" towards the host (R55, D17). A session that exists is run to its
response first, and the host is held meanwhile (R65; log 5). Otherwise the host issues its next command and the block performs
it; when the host issues none, nothing changes (log 1). -/
def step (s : State) : Host.Outcome State Fault Refusal :=
  match s.session with
  | some _ => .next (finishSession s)
  | none =>
    match hostIssue s with
    | (some i, s') => exec i s'
    | (none, s') => .next s'

/-- The state with the instruction whose bits are `w` placed where the next step takes it: as the host's next act, with no
session in its way (log 13, log 14). -/
def State.withFetchWord (s : State) (_nbits w : Nat) : State := placeCommand s w

end Sys2Proof.Machine
end

