-- ==== Sys2Proof/Machine/Assembler.lean ====
section
/-! DEFINITION. The assembler (30_encoding.md R71, R72): a line of text to an assembler line, and that to what the host issues.
Text is a list of characters. What R71 leaves open of the text is log 11. -/

namespace Sys2Proof.Machine

/-- Why the assembler refuses a line. -/
inductive AsmRefusal where
  /-- The words of the line are none of R71's forms. Safe: nothing is issued. -/
  | notALine
  /-- The operand is no decimal, `0x` or `0b` number (R71 for `imm8`; for `imm10` log 11). Safe. -/
  | notANumber
  /-- The operand is a number, but not an `imm8` (R71: "refuses an `imm8` outside `0..255`") or not an `imm10` (DESIGN CHOICE,
  log 11: R71 says nothing of a `.word` wider than ten bits). Safe. -/
  | operandTooWide (imm : Nat)
deriving DecidableEq, Repr

/-- The line before its comment: "A `;` starts a comment" (R71). -/
def asmCode (cs : List Char) : List Char := cs.takeWhile (· ≠ ';')

/-- The words of a line, split at spaces and tabs; `cur` is the word being read, last character first (log 11). -/
def asmWords : List Char → List Char → List (List Char)
  | [], cur => if cur = [] then [] else [cur.reverse]
  | c :: cs, cur =>
    if c = ' ' ∨ c = '\t' then (if cur = [] then [] else [cur.reverse]) ++ asmWords cs [] else asmWords cs (c :: cur)

/-- The value of a digit of the base; hexadecimal digits in either case (log 11). -/
def asmDigit (base : Nat) (c : Char) : Option Nat :=
  let d :=
    if 48 ≤ c.toNat ∧ c.toNat ≤ 57 then some (c.toNat - 48)
    else if 97 ≤ c.toNat ∧ c.toNat ≤ 102 then some (c.toNat - 87)
    else if 65 ≤ c.toNat ∧ c.toNat ≤ 70 then some (c.toNat - 55)
    else none
  d.filter (· < base)

/-- The value of a run of digits of the base, after digits worth `acc`. -/
def asmDigits (base acc : Nat) : List Char → Option Nat
  | [] => some acc
  | c :: cs => (asmDigit base c).bind fun d => asmDigits base (base * acc + d) cs

/-- A number "written in decimal, `0x` hexadecimal or `0b` binary", of at least one digit. R71 states these forms for `imm8` only;
that `.word`'s `imm10` is read in the same three forms is the model's (DESIGN CHOICE, log 11, unsafe for such texts). -/
def asmNumber : List Char → Option Nat
  | '0' :: 'x' :: c :: cs => asmDigits 16 0 (c :: cs)
  | '0' :: 'b' :: c :: cs => asmDigits 2 0 (c :: cs)
  | c :: cs => asmDigits 10 0 (c :: cs)
  | [] => none

/-- The mnemonics of R71 and R72. -/
def asmShiftOut : List Char := ['S', 'H', 'I', 'F', 'T', '_', 'O', 'U', 'T']
def asmShiftIn : List Char := ['S', 'H', 'I', 'F', 'T', '_', 'I', 'N']
def asmWord : List Char := ['.', 'w', 'o', 'r', 'd']
def asmMirror : List Char := ['M', 'I', 'R', 'R', 'O', 'R']

/-- An operand read as a number, or the refusal. -/
def asmOperand (cs : List Char) (f : Nat → AsmLine) : Except AsmRefusal (Option AsmLine) :=
  match asmNumber cs with
  | some n => .ok (some (f n))
  | none => .error .notANumber

/-- A line of text as an assembler line (R71, R72); none for a line with no code. That `MIRROR`, alone on a line, is such a line, and
that `.word`'s operand takes the number forms of an `imm8`, is log 11. -/
def asmRead (line : List Char) : Except AsmRefusal (Option AsmLine) :=
  match asmWords (asmCode line) [] with
  | [] => .ok none
  | [m] =>
    if m = asmShiftIn then .ok (some .shiftIn)
    else if m = asmMirror then .ok (some .mirror)
    else .error .notALine
  | [m, x] =>
    if m = asmShiftOut then asmOperand x .shiftOut
    else if m = asmWord then asmOperand x .word
    else .error .notALine
  | _ => .error .notALine

/-- An assembler line as what the host issues (R71's table, R72): `SHIFT_OUT imm8` is `0x100 | imm8`, `SHIFT_IN` is `0x200`,
`.word imm10` is any word; `MIRROR` is the host sequence and no word. An `imm8` that does not fit is refused, never masked: "the
masking of wider host values belongs to a host software interface, not to the assembler"; that an `imm10` that does not fit is refused too is log 11. -/
def assemble (l : AsmLine) : Except AsmRefusal HostOp :=
  match l with
  | .shiftOut imm => if l.wf then .ok (.issue (0x100#10 ||| BitVec.ofNat 10 imm)) else .error (.operandTooWide imm)
  | .shiftIn => .ok (.issue 0x200)
  | .word imm => if l.wf then .ok (.issue (BitVec.ofNat 10 imm)) else .error (.operandTooWide imm)
  | .mirror => .ok .mirror

/-- A program text, line by line, as what the host issues; the first refused line refuses the text. -/
def assembleText : List (List Char) → Except AsmRefusal (List HostOp)
  | [] => .ok []
  | line :: lines =>
    match asmRead line with
    | .error e => .error e
    | .ok none => assembleText lines
    | .ok (some l) =>
      match assemble l with
      | .error e => .error e
      | .ok op =>
        match assembleText lines with
        | .error e => .error e
        | .ok ops => .ok (op :: ops)

end Sys2Proof.Machine
end

