-- ==== Sys2Proof/Safety.lean ====
section
/-! DEFINITION. The terms claims are stated in: fault-free backends, idle lines, well-formed sessions, and the invariant that
every step keeps. -/

namespace Sys2Proof.Machine

/-- The backend's answer to the primitive `j` primitives from now, counted from 0 (R46): a claim over every state is a claim
over every sequence of answers, since a state may list any, and no proof can see one it does not list. -/
def State.answerAt (s : State) (j : Nat) : Answer :=
  match s.answers[j]? with
  | some a => a
  | none => Config.freeAnswer (s.draws + j)

/-- The next `n` primitives all answer `ok`: the fault-free backend for that long (R46; reads too, as 95_test_vectors.md has it;
DEDUCED, log 20). -/
abbrev State.OksFor (s : State) (n : Nat) : Prop := ∀ j < n, s.answerAt j ≠ .fail

/-- The next `n` primitives answer `ok` and the one after them answers `fail`. -/
abbrev State.FailsAfter (s : State) (n : Nat) : Prop := s.OksFor n ∧ s.answerAt n = .fail

/-- The level the read `j` primitives from now returns; `low` where it fails (read only under `OksFor`). -/
def State.levelAt (s : State) (j : Nat) : Level :=
  match s.answerAt j with
  | .ok lvl => lvl
  | .fail => .low

/-- The entry of primitive `p` when it answers `ok`, with `lvl` if it is the read (R11). -/
def okEntry (p : Prim) (lvl : Level) : TraceEntry :=
  match p with
  | .write L l => .write L l .ok
  | .read => .read (.ok lvl)

/-- The entry of a recovery write when the backend answers `a` (R134, R11). -/
def recoveryEntry (e : Engine) (rk : Nat) (a : Answer) : TraceEntry :=
  .write (recoveryWrite e rk).1 (recoveryWrite e rk).2 (answerResult a)

/-- The entry of main-sequence primitive `k` when it fails (R132, R11). -/
def failEntry (p : Prim) : TraceEntry :=
  match p with
  | .write L lvl => .write L lvl .fail
  | .read => .read .fail

/-- `seq_out(V)` as R81's table lists it: the assertion, the eight slots, the return of the clock, the de-assertion. -/
def outSeq (v : Byte) : List Prim :=
  [.write .soLatch .low] ++
  (List.range 8).flatMap (fun i =>
    [.write .soClk .low, .write .soData (valueLevel v i), .write .soClk .high, .write .soData .low]) ++
  [.write .soClk .low, .write .soLatch .high]

/-- `seq_in` as R101's table lists it. -/
def inSeq : List Prim :=
  [.write .siLatch .high] ++
  (List.range 8).flatMap (fun _ => [.write .siClk .high, .read, .write .siClk .low]) ++
  [.write .siLatch .low]

/-- The entries of primitives that all answer `ok`, the read at place `j` of the list returning `lvls j` (R11). -/
def okEntries : List Prim → (Nat → Level) → List TraceEntry
  | [], _ => []
  | p :: ps, lvls => okEntry p (lvls 0) :: okEntries ps fun j => lvls (j + 1)

/-- The entries of a command whose primitive `k` is the first to fail (R132, R133, R134): `k - 1` that answered `ok`, the one that
failed, and both recovery writes, whatever `a1` and `a2` the backend answers to them. -/
def failEntries (ps : List Prim) (lvls : Nat → Level) (e : Engine) (k : Nat) (a1 a2 : Answer) : List TraceEntry :=
  okEntries (ps.take (k - 1)) lvls ++ ((ps.drop (k - 1)).take 1).map failEntry ++
    [recoveryEntry e 1 a1, recoveryEntry e 2 a2]

/-- The state after a command that performed the primitives of the entries `es` and responded `rsp`: nothing else of the state
changes, and one answer has been used for each primitive. -/
def State.afterCommand (s : State) (es : List TraceEntry) (rsp : Word10) : State where
  drv := s.drv.replay es
  session := none
  trace := s.trace ++ es
  responses := s.responses ++ [rsp]
  host := s.host
  answers := s.answers.drop es.length
  draws := s.draws + es.length

/-- The accumulator once slots 0 to `m - 1` have been read, the read of slot `i` being primitive `k = 3 + 3i`, so the one
`2 + 3i` primitives after the start (R101, R102). -/
def accAfter (lvls : Nat → Level) : Nat → Byte
  | 0 => 0x00
  | m + 1 => placeBit (accAfter lvls m) (lvls (2 + 3 * m)) m

/-- The raw accumulator as R103 sums it: `Σ_{i=0..7} b_i << (7 - i)`, `b_i` the bit read in slot `i`. -/
def rawSum (b : Nat → Level) : Nat := ((List.range 8).map fun i => (b i).bit <<< (7 - i)).sum

/-- What `drv` records of a write of `lvl` that the backend answers `a` (R44): the level, or `X`. -/
def drivenAfter (a : Answer) (lvl : Level) : Driven :=
  match a with
  | .ok _ => .ofLevel lvl
  | .fail => .x

/-- The engine whose line an entry is about (R20). -/
def TraceEntry.engine : TraceEntry → Engine
  | .write L _ _ => L.engine
  | .read _ => .deserializer

/-- `drv[L]` is at `L`'s idle level, or not fixed (R23, R136). -/
abbrev Drv.RestsAt (d : Drv) (L : OutLine) : Prop := d.get L = .ofLevel L.idle ∨ d.get L = .x

/-- The idle invariant of R23: both clocks and both latch-enables at their idle levels. -/
abbrev Drv.Idle (d : Drv) : Prop := d.soClk = .low ∧ d.soLatch = .high ∧ d.siClk = .low ∧ d.siLatch = .low

/-- A response word the spec allows (R66, R67, R105): LINE_ERROR or ILLEGAL_COMMAND with no data, or OK with the `0x00` of a
SHIFT_OUT or a SHIFT_IN value, whose bits `[2:0]` are `0b111`. -/
abbrev LegalResponse (r : Word10) : Prop :=
  r = 0x100#10 ∨ r = 0x200#10 ∨ (rspStatus r = 0b00#2 ∧ (rspData r = 0x00#8 ∨ (rspData r).extractLsb' 0 3 = 0b111#3))

/-- The ranges of R25, with `err` recording the primitive the session stopped at (R133). -/
abbrev Session.WF (σ : Session) : Prop :=
  1 ≤ σ.k ∧ σ.k ≤ σ.regs.last ∧ 1 ≤ σ.rk ∧ σ.rk ≤ 2 ∧ (σ.err = none ∧ σ.rk = 1 ∨ σ.err = some σ.k)

/-- The session has returned its clock low (or failed to) and has only its latch-enable left to write: the last primitive of
the main sequence, or the second recovery write (R81, R101, R134). -/
abbrev Session.ClockDone (σ : Session) : Prop := σ.err = none ∧ σ.k = σ.regs.last ∨ σ.err ≠ none ∧ σ.rk = 2

/-- "no session may be left half-open" (R23): an engine that no session runs on has its clock and latch-enable at rest, and one
that a session runs on has its clock at rest before its last write. -/
def State.LinesRest (s : State) : Prop :=
  match s.session with
  | none => ∀ e : Engine, s.drv.RestsAt e.clk ∧ s.drv.RestsAt e.latch
  | some σ =>
    ∀ e : Engine, (e ≠ σ.regs.engine → s.drv.RestsAt e.clk ∧ s.drv.RestsAt e.latch) ∧
      (e = σ.regs.engine → σ.ClockDone → s.drv.RestsAt e.clk)

/-- The invariant: the session is well-formed, every response so far is legal, no engine's lines are left half-open, the trace
since reset accounts for every answer given and for every level of `drv` (R11, R22, R44). -/
structure State.Inv (s : State) : Prop where
  session : ∀ σ, s.session = some σ → σ.WF
  responses : ∀ r ∈ s.responses, LegalResponse r
  lines : s.LinesRest
  draws : s.draws = s.trace.length
  drv : s.drv = State.reset.drv.replay s.trace

end Sys2Proof.Machine
end

