-- ==== Sys2Proof/Certificates/Slice0/Obligations.lean ====
section
/-! DEFINITION. The statements for the provers, from the numbered rules of spec/. -/

open Sys2Proof Sys2Proof.Machine

/-! ### Words and instructions -/

/-- R62, R63, R68: words written out from the opcode map decode to the instructions they stand for. -/
def Obligations.WrittenWordsDecode : Prop :=
  decode 0b0110110000#10 = .shiftOut 0xB0 ∧ decode 0b0111111111#10 = .shiftOut 0xFF ∧
  decode 0b1000000000#10 = .shiftIn 0x00 ∧ decode 0b1011111111#10 = .shiftIn 0xFF ∧
  decode 0b0000000000#10 = .reserved00 0x00 ∧ decode 0b0011111111#10 = .reserved00 0xFF ∧
  decode 0b1100000000#10 = .reserved11 0x00 ∧ decode 0b1110101010#10 = .reserved11 0xAA

/-- R64, R69: the decoder and the encoder are inverse to each other, over every instruction with every operand and over all
1024 command words, and each word's instruction is the one its row of the opcode map names, which no other row covers. -/
def Obligations.DecodeAndEncodeAgree : Prop :=
  (∀ i : Instr, decode (encode i) = i) ∧ (∀ w : Word10, encode (decode w) = w) ∧
  ∀ w : Word10, (decode w).row ∈ opcodeTable ∧ ∀ r ∈ opcodeTable, r.covers w = true ↔ r = (decode w).row

/-- R61, R73 (a refusal by name is the model's, log 13): a number is decoded exactly when it is a 10-bit word, whatever number
of bits the table gives the row. -/
def Obligations.OnlyTenBitWordsAreCommands : Prop :=
  (∀ w, w < 1024 → decodeNumber w = .ok (decode (BitVec.ofNat 10 w))) ∧
  (∀ w, 1024 ≤ w → decodeNumber w = .error (.widerThanTenBits w)) ∧
  (∀ n w, w < 1024 → decodeTableWord n w = some (decode (BitVec.ofNat 10 w))) ∧
  (∀ n w, 1024 ≤ w → decodeTableWord n w = none)

/-- R63: for SHIFT_OUT `V` is `cmd[7:0]` unchanged; for SHIFT_IN and for a reserved `OP` the data field is ignored, any two words of
one `OP` having the same behaviour; the canonical SHIFT_IN has `cmd[7:0] = 0x00`. -/
def Obligations.OperandAssembly : Prop :=
  (∀ w : Word10, opField w = 0b01#2 → decode w = .shiftOut (w.extractLsb' 0 8)) ∧
  (∀ (w w' : Word10) (s : State), opField w = opField w' → opField w ≠ 0b01#2 → exec (decode w) s = exec (decode w') s) ∧
  ∀ d : Byte, encode (Instr.shiftIn d).canonical = 0x200#10 ∧ opField (encode (Instr.shiftIn d)) = 0b10#2

/-- R64 (`ACC` before step 2 is a free value, log 6): an accepted command creates a session of its operation with `k = 1` and
`err = none`, `V` the data field of a SHIFT_OUT, and is that session run to its response. -/
def Obligations.AcceptanceCreatesTheSession : Prop :=
  ∀ s : State, s.session = none →
    (∀ v : Byte, ∃ σ : Session, σ.regs = .shiftOut v ∧ σ.k = 1 ∧ σ.err = none ∧
      exec (.shiftOut v) s = .next (finishSession (s.setSession (some σ)))) ∧
    (∀ d : Byte, ∃ (σ : Session) (acc : Byte), σ.regs = .shiftIn acc ∧ σ.k = 1 ∧ σ.err = none ∧
      exec (.shiftIn d) s = .next (finishSession (s.setSession (some σ))))

/-- R81, R101 (and R26's `I`, a function of `k` alone): the main sequences, place by place. Slot `i` of SHIFT_OUT is
`k = 2 + 4i .. 5 + 4i`, slot `i` of SHIFT_IN is `k = 2 + 3i .. 4 + 3i`, and `I` is `i` throughout the slot. -/
def Obligations.SequencesAreTheTables : Prop :=
  (∀ v : Byte, seqOut v 1 = .write .soLatch .low ∧ seqOut v 34 = .write .soClk .low ∧ seqOut v 35 = .write .soLatch .high ∧
    ∀ i < 8, seqOut v (2 + 4 * i) = .write .soClk .low ∧
      seqOut v (3 + 4 * i) = .write .soData (if v.getLsbD i then .high else .low) ∧
      seqOut v (4 + 4 * i) = .write .soClk .high ∧ seqOut v (5 + 4 * i) = .write .soData .low ∧
      ∀ (j rk : Nat) (err : Option Nat), j < 4 → Session.bitIndex ⟨.shiftOut v, 2 + 4 * i + j, rk, err⟩ = some i) ∧
  seqIn 1 = .write .siLatch .high ∧ seqIn 26 = .write .siLatch .low ∧
  ∀ i < 8, seqIn (2 + 3 * i) = .write .siClk .high ∧ seqIn (3 + 3 * i) = .read ∧ seqIn (4 + 3 * i) = .write .siClk .low ∧
    ∀ (acc : Byte) (j rk : Nat) (err : Option Nat), j < 3 →
      Session.bitIndex ⟨.shiftIn acc, 2 + 3 * i + j, rk, err⟩ = some i

/-! ### The primitives -/

/-- R44: a write returns the backend's answer; `ok` sets `drv[L]` to the level written, `fail` sets it to `X`; the trace records
the write with its outcome, and nothing else of the block changes. -/
def Obligations.LineWriteRecordsItsOutcome : Prop :=
  ∀ (L : OutLine) (lvl : Level) (s : State),
    (∀ l, s.answerAt 0 = .ok l → lineWrite L lvl s =
      (.ok, { s with drv := s.drv.set L (.ofLevel lvl), trace := s.trace ++ [.write L lvl .ok], answers := s.answers.tail,
                     draws := s.draws + 1 })) ∧
    (s.answerAt 0 = .fail → lineWrite L lvl s =
      (.fail, { s with drv := s.drv.set L .x, trace := s.trace ++ [.write L lvl .fail], answers := s.answers.tail,
                       draws := s.draws + 1 })) ∧
    (∀ v : Driven, (s.drv.set L v).get L = v ∧ ∀ L', L' ≠ L → (s.drv.set L v).get L' = s.drv.get L')

/-- R45: a read returns the backend's answer, the level or `fail`, and changes no block state: no `drv` entry, no session. -/
def Obligations.LineReadChangesNoLine : Prop :=
  ∀ s : State, lineRead s =
    (s.answerAt 0, { s with trace := s.trace ++ [.read (s.answerAt 0)], answers := s.answers.tail, draws := s.draws + 1 })

/-- R46 (the form of the oracle is the model's, log 2): the answers a state lists are the answers its next primitives get, in
order, so that any finite run can be given any answers. -/
def Obligations.AnyAnswersCanCome : Prop :=
  ∀ (s : State) (as : List Answer) (j : Nat) (h : j < as.length), ({ s with answers := as } : State).answerAt j = as[j] ∧
    ∀ es : List TraceEntry, es.length = j → (({ s with answers := as } : State).performAll es).nextAnswer = as[j]

/-! ### SHIFT_OUT -/

/-- R82, R81, R83: on the fault-free backend SHIFT_OUT performs exactly the 35 writes of `seq_out(V)`, in its order, with every data
reset, responds `{OK, 0x00}`, and leaves `SO_CLK` low, `SO_LATCH` high and `SO_DATA` low, no `SI_*` line changed. When its
primitive `k` is the first to fail, the trace is primitives `1..k` and then both recovery writes, whatever they return, and the
response is `{LINE_ERROR, 0x00}`. -/
def Obligations.ShiftOutRunsItsSequence : Prop :=
  ∀ (v : Byte) (s : State), s.session = none →
    (s.OksFor 35 → exec (.shiftOut v) s = .next
      { drv := { s.drv with soData := .low, soClk := .low, soLatch := .high }
        session := none
        trace := s.trace ++ okEntries (outSeq v) s.levelAt
        responses := s.responses ++ [0x000#10]
        host := s.host
        answers := s.answers.drop 35
        draws := s.draws + 35 }) ∧
    ∀ k, 1 ≤ k → k ≤ 35 → s.FailsAfter (k - 1) → exec (.shiftOut v) s = .next (s.afterCommand
      (failEntries (outSeq v) s.levelAt .serializer k (s.answerAt k) (s.answerAt (k + 1))) 0x100#10)

/-- R136, R135 and R24 (the spec marks R136 and R24 as derived): after a SHIFT_OUT that fails, `SO_CLK` is low and `SO_LATCH` high
where its recovery write returned `ok`, and `X` where it did not; the deserializer's lines are as they were. -/
def Obligations.ShiftOutFailureRestoresIdle : Prop :=
  ∀ (v : Byte) (s : State) (k : Nat), s.session = none → 1 ≤ k → k ≤ 35 → s.FailsAfter (k - 1) →
    ∃ t, exec (.shiftOut v) s = .next t ∧
      t.drv.soClk = drivenAfter (s.answerAt k) .low ∧
      t.drv.soLatch = drivenAfter (s.answerAt (k + 1)) .high ∧
      t.drv.siClk = s.drv.siClk ∧ t.drv.siLatch = s.drv.siLatch

/-- R85 (derived in the spec from R81): the fault-free trace of SHIFT_OUT has exactly eight `SO_CLK` pulses from any levels, its
first entry asserts the latch-enable, its last de-asserts it, and the levels of `SO_DATA` at the pulses are `V[0]` to `V[7]`. -/
def Obligations.ShiftOutHasEightPulses : Prop :=
  ∀ (v : Byte) (s t : State), s.session = none → s.OksFor 35 → exec (.shiftOut v) s = .next t →
    ∃ es, t.trace = s.trace ++ es ∧ clockPulses .soClk s.drv es = 8 ∧
      es.head? = some (.write .soLatch .low .ok) ∧ es.getLast? = some (.write .soLatch .high .ok) ∧
      decodeOut es = (List.range 8).map fun i => some (.ofLevel (valueLevel v i))

/-- R59 (derived in the spec from R82): the loopback reading of a fault-free SHIFT_OUT's trace has eight entries and sums to `V`. -/
def Obligations.LoopbackReconstructsTheValue : Prop :=
  ∀ (v : Byte) (s : State), s.session = none → s.OksFor 35 →
    ∃ t es, exec (.shiftOut v) s = .next t ∧ t.trace = s.trace ++ es ∧ (decodeOut es).length = 8 ∧
      lsbFirstValue (decodeOut es) = some v.toNat

/-- R86: no write is elided and the trace is a function of `V` alone: two SHIFT_OUT commands with the same `V`, on the fault-free
backend, from any two states, produce identical traces; the second may be the one right after the first. -/
def Obligations.ShiftOutTraceDependsOnValueOnly : Prop :=
  ∀ (v : Byte) (s s' : State), s.session = none → s.OksFor 35 → s'.session = none → s'.OksFor 35 →
    ∃ t t' es, exec (.shiftOut v) s = .next t ∧ exec (.shiftOut v) s' = .next t' ∧ t.trace = s.trace ++ es ∧
      t'.trace = s'.trace ++ es ∧ es = okEntries (outSeq v) fun _ => .low

/-- What SHIFT_OUT leaves unchanged, whatever the backend answers (R82 "State written", R40, R65): the lines of the other engine,
what the host has to do, the trace and the responses so far; it hands over exactly one response. -/
def Obligations.ShiftOutFrame : Prop :=
  ∀ (v : Byte) (s t : State), exec (.shiftOut v) s = .next t →
    t.session = none ∧ t.host = s.host ∧ t.drv.siClk = s.drv.siClk ∧ t.drv.siLatch = s.drv.siLatch ∧
    (∃ rsp, t.responses = s.responses ++ [rsp]) ∧
    ∃ es, t.trace = s.trace ++ es ∧ t.drv = s.drv.replay es ∧ t.answers = s.answers.drop es.length ∧
      t.draws = s.draws + es.length ∧ es.length ≤ 37 ∧ ∀ e ∈ es, e.engine = .serializer

/-! ### SHIFT_IN -/

/-- R102, R101: on the fault-free backend SHIFT_IN performs exactly the 26 primitives of `seq_in`, in its order, and responds
`{OK, xform(ACC)}`, `ACC` accumulated from 0x00 by `ACC | (bit(r) << (7 - i))` over the eight levels read; it ends with `SI_CLK`
and `SI_LATCH` low, no `SO_*` line changed. When its primitive `k`, a write or a read, is the first to fail, the trace is
primitives `1..k` and then both recovery writes, whatever they return, and the response is `{LINE_ERROR, 0x00}`. -/
def Obligations.ShiftInRunsItsSequence : Prop :=
  ∀ (d : Byte) (s : State), s.session = none →
    (s.OksFor 26 → exec (.shiftIn d) s = .next
      { drv := { s.drv with siClk := .low, siLatch := .low }
        session := none
        trace := s.trace ++ okEntries inSeq s.levelAt
        responses := s.responses ++ [responseWord .ok (xform (accAfter s.levelAt 8))]
        host := s.host
        answers := s.answers.drop 26
        draws := s.draws + 26 }) ∧
    ∀ k, 1 ≤ k → k ≤ 26 → s.FailsAfter (k - 1) → exec (.shiftIn d) s = .next (s.afterCommand
      (failEntries inSeq s.levelAt .deserializer k (s.answerAt k) (s.answerAt (k + 1))) 0x100#10)

/-- R49: the bit read in slot `i` is position `7 - i` of the raw accumulator: the first bit read lands in bit 7. -/
def Obligations.FirstBitReadLandsInBitSeven : Prop :=
  ∀ (lvls : Nat → Level) (i : Nat), i < 8 →
    (accAfter lvls 8).getLsbD (7 - i) = decide (lvls (2 + 3 * i) = .high)

/-- R103 (derived in the spec from R101): the raw accumulator is `Σ b_i << (7 - i)`, with no carry and no truncation. -/
def Obligations.AccumulatorIsTheSumOfItsBits : Prop :=
  ∀ lvls : Nat → Level, (accAfter lvls 8).toNat = rawSum fun i => lvls (2 + 3 * i)

/-- R104: `xform(r) = ((r << 3) & 0xFF) ^ 0xFF` as numbers, `r << 3` computed without loss; truncating after the XOR gives the
same; and it is the value a fault-free SHIFT_IN returns for its raw accumulator. -/
def Obligations.TransformFormula : Prop :=
  (∀ r : Byte, (xform r).toNat = ((r.toNat <<< 3) &&& 0xFF) ^^^ 0xFF ∧
    (xform r).toNat = ((r.toNat <<< 3) ^^^ 0xFF) % 256) ∧
  ∀ (d : Byte) (s : State), s.session = none → s.OksFor 26 →
    ∃ t rsp, exec (.shiftIn d) s = .next t ∧ t.responses = s.responses ++ [rsp] ∧ rspStatus rsp = 0b00#2 ∧
      (rspData rsp).toNat = (((accAfter s.levelAt 8).toNat <<< 3) &&& 0xFF) ^^^ 0xFF

/-- R105 (derived in the spec from R103 and R104): result bits `[7:3]` are the inverses of `r[4:0]`, bits `[2:0]` are `0b111`, and
exactly the bytes with low bits `0b111` can be returned. -/
def Obligations.TransformKeepsFiveInvertedBits : Prop :=
  (∀ r : Byte, (xform r).extractLsb' 3 5 = (~~~r).extractLsb' 0 5 ∧ (xform r).extractLsb' 0 3 = 0b111#3) ∧
  ∀ x : Byte, x.extractLsb' 0 3 = 0b111#3 → ∃ r : Byte, xform r = x

/-- R105 (derived in the spec): the bits read in slots 0, 1 and 2 never affect the result of a SHIFT_IN. -/
def Obligations.FirstThreeReadsAreDiscarded : Prop :=
  ∀ (d : Byte) (s s' : State), s.session = none → s.OksFor 26 → s'.session = none → s'.OksFor 26 →
    (∀ i, 3 ≤ i → i < 8 → s.levelAt (2 + 3 * i) = s'.levelAt (2 + 3 * i)) →
    ∃ t t' rsp, exec (.shiftIn d) s = .next t ∧ exec (.shiftIn d) s' = .next t' ∧ t.responses = s.responses ++ [rsp] ∧
      t'.responses = s'.responses ++ [rsp]

/-- R136, R135 (the spec marks R136 as derived): after a SHIFT_IN that fails, `SI_CLK` and `SI_LATCH` are low where their recovery
writes returned `ok`, and `X` where they did not; the serializer's lines are as they were. -/
def Obligations.ShiftInFailureRestoresIdle : Prop :=
  ∀ (d : Byte) (s : State) (k : Nat), s.session = none → 1 ≤ k → k ≤ 26 → s.FailsAfter (k - 1) →
    ∃ t, exec (.shiftIn d) s = .next t ∧
      t.drv.siClk = drivenAfter (s.answerAt k) .low ∧
      t.drv.siLatch = drivenAfter (s.answerAt (k + 1)) .low ∧
      t.drv.soData = s.drv.soData ∧ t.drv.soClk = s.drv.soClk ∧ t.drv.soLatch = s.drv.soLatch

/-- R111 (derived in the spec): a fault-free SHIFT_IN gives eight `SI_CLK` pulses when `drv[SI_CLK]` is low at its start; otherwise
its first high write is no pulse and it gives seven. -/
def Obligations.ShiftInPulseCount : Prop :=
  ∀ (d : Byte) (s : State), s.session = none → s.OksFor 26 →
    ∃ t es, exec (.shiftIn d) s = .next t ∧ t.trace = s.trace ++ es ∧
      clockPulses .siClk s.drv es = if s.drv.siClk = .low then 8 else 7

/-- What SHIFT_IN leaves unchanged, whatever the backend answers (R102 "State written", R40, R65): the lines of the other engine,
what the host has to do, the trace and the responses so far; it hands over exactly one response. -/
def Obligations.ShiftInFrame : Prop :=
  ∀ (d : Byte) (s t : State), exec (.shiftIn d) s = .next t →
    t.session = none ∧ t.host = s.host ∧
    t.drv.soData = s.drv.soData ∧ t.drv.soClk = s.drv.soClk ∧ t.drv.soLatch = s.drv.soLatch ∧
    (∃ rsp, t.responses = s.responses ++ [rsp]) ∧
    ∃ es, t.trace = s.trace ++ es ∧ t.drv = s.drv.replay es ∧ t.answers = s.answers.drop es.length ∧
      t.draws = s.draws + es.length ∧ es.length ≤ 28 ∧ ∀ e ∈ es, e.engine = .deserializer

/-! ### Reserved words, and every command -/

/-- R68: a reserved word performs no primitive, changes no `drv` entry, creates no session and responds `0x200`. -/
def Obligations.ReservedWordsRespondIllegal : Prop :=
  ∀ (d : Byte) (s : State), s.session = none →
    exec (.reserved00 d) s = .next { s with responses := s.responses ++ [0x200#10] } ∧
    exec (.reserved11 d) s = .next { s with responses := s.responses ++ [0x200#10] }

/-- R68: what a reserved word leaves unchanged: everything but the responses. -/
def Obligations.ReservedFrame : Prop :=
  ∀ (d : Byte) (s t : State), exec (.reserved00 d) s = .next t ∨ exec (.reserved11 d) s = .next t →
    t.drv = s.drv ∧ t.session = s.session ∧ t.trace = s.trace ∧ t.host = s.host ∧ t.answers = s.answers ∧
    t.draws = s.draws ∧ ∃ rsp, t.responses = s.responses ++ [rsp]

/-- R65 (the fault is the model's form of "no step", log 5): a command issued while a session exists has no step, whichever
command it is. -/
def Obligations.NoCommandWhileASessionExists : Prop :=
  ∀ (i : Instr) (s : State) (σ : Session), s.session = some σ → exec i s = .fault .hostHeld

/-- R143, R65 (part of R143 is derived in the spec): whenever no session exists, every command reaches its response, whatever the
backend answers, after at most 37 primitives, a SHIFT_IN after at most 28. -/
def Obligations.EveryCommandResponds : Prop :=
  ∀ (i : Instr) (s : State), s.session = none →
    ∃ t es rsp, exec i s = .next t ∧ t.session = none ∧ t.responses = s.responses ++ [rsp] ∧ t.trace = s.trace ++ es ∧
      es.length ≤ 37 ∧ ((∃ d, i = .shiftIn d) → es.length ≤ 28)

/-- R66, R67, R131: the status of a response is OK, LINE_ERROR or ILLEGAL_COMMAND, never `0b11`; its data is `0x00` but for a SHIFT_IN
that responds OK; and ILLEGAL_COMMAND is the response of the reserved words and of no other. -/
def Obligations.ResponsesAreWellFormed : Prop :=
  ∀ (i : Instr) (s t : State), exec i s = .next t →
    ∃ rsp, t.responses = s.responses ++ [rsp] ∧ rspStatus rsp ≠ 0b11#2 ∧
      (rspData rsp ≠ 0x00#8 → rspStatus rsp = 0b00#2 ∧ ∃ d, i = .shiftIn d) ∧
      (rspStatus rsp = 0b10#2 ↔ (∃ d, i = .reserved00 d) ∨ ∃ d, i = .reserved11 d)

/-- R22 and R152 (the spec marks this clause of R22, and R152, as derived): no command reads `drv`. From two states that differ in
`drv` (and in what the host has to do, the trace and the responses so far), the same answers give the same trace and response. -/
def Obligations.NoCommandReadsDrv : Prop :=
  ∀ (i : Instr) (s s' : State), s.session = none → s'.session = none → s'.answers = s.answers → s'.draws = s.draws →
    ∃ t t' es rsp, exec i s = .next t ∧ exec i s' = .next t' ∧ t.trace = s.trace ++ es ∧ t'.trace = s'.trace ++ es ∧
      t.responses = s.responses ++ [rsp] ∧ t'.responses = s'.responses ++ [rsp]

/-- R23: from idle lines, a command whose every line operation returns `ok` leaves all four clocks and latch-enables idle again. -/
def Obligations.FaultFreeCommandLeavesLinesIdle : Prop :=
  ∀ (i : Instr) (s : State), s.session = none → s.OksFor 35 → s.drv.Idle → ∃ t, exec i s = .next t ∧ t.drv.Idle

/-! ### The sequencer -/

/-- R82, R102 and R26 (the `k` of R26 is derived in the spec): a main-sequence primitive that returns `ok` advances `k` by exactly
one. That after the last one the session is gone and the response OK is given in the same step of the sequencer is the model's
choice, log 9: the rules say only that the response follows. -/
def Obligations.ProgramCounterAdvancesByOne : Prop :=
  ∀ (s : State) (σ : Session) (lvl : Level), s.session = some σ → σ.WF → σ.err = none → s.answerAt 0 = .ok lvl →
    (tick s).trace = s.trace ++ [okEntry (σ.regs.prim σ.k) lvl] ∧
    (σ.k < σ.regs.last → ∃ σ', (tick s).session = some σ' ∧ σ'.k = σ.k + 1 ∧ σ'.err = none ∧ σ'.rk = σ.rk ∧
      (tick s).responses = s.responses) ∧
    (σ.k = σ.regs.last → (tick s).session = none ∧
      ∃ rsp, (tick s).responses = s.responses ++ [rsp] ∧ rspStatus rsp = 0b00#2)

/-- R133, R132, R44, R134: a main-sequence primitive that returns `fail` raises the LineError at itself: its line holds `X` if it was
a write, no line changes if it was a read; `err` is its number; the next primitives are the two recovery writes and no other; then
the response `{LINE_ERROR, 0x00}`. That the response is given in the sequencer step of the second recovery write, and that a
session outside R25's ranges does the same, is the model's choice, log 9. -/
def Obligations.LineErrorIsPrecise : Prop :=
  ∀ (s : State) (σ : Session), s.session = some σ → σ.err = none → s.answerAt 0 = .fail →
    (tick s).session = some { σ with err := some σ.k, rk := 1 } ∧ (tick s).responses = s.responses ∧
    (tick s).trace = s.trace ++ [failEntry (σ.regs.prim σ.k)] ∧
    (∀ L lvl, σ.regs.prim σ.k = .write L lvl → (tick s).drv = s.drv.set L .x) ∧
    (σ.regs.prim σ.k = .read → (tick s).drv = s.drv) ∧
    (tick (tick (tick s))).session = none ∧ (tick (tick (tick s))).responses = s.responses ++ [0x100#10] ∧
    (tick (tick (tick s))).trace = s.trace ++ [failEntry (σ.regs.prim σ.k),
      recoveryEntry σ.regs.engine 1 (s.answerAt 1), recoveryEntry σ.regs.engine 2 (s.answerAt 2)]

/-- R134, R135, R137, R44: a session with a LineError writes its engine's clock low and then its latch-enable to idle, whatever
either write returns (the line of one that fails holds `X`), and then responds `0x100`; no data line is written. That the session
is gone and the response given in the sequencer step of the second write is the model's choice, log 9. -/
def Obligations.RecoveryIsTwoWrites : Prop :=
  ∀ (s : State) (σ : Session) (k : Nat), s.session = some σ → σ.err = some k → σ.rk = 1 →
    (tick (tick s)).session = none ∧ (tick (tick s)).responses = s.responses ++ [0x100#10] ∧
    (tick (tick s)).drv.soData = s.drv.soData ∧
    (tick (tick s)).trace = s.trace ++
      [.write σ.regs.engine.clk .low (answerResult (s.answerAt 0)),
       .write σ.regs.engine.latch σ.regs.engine.latch.idle (answerResult (s.answerAt 1))] ∧
    (tick (tick s)).drv.get σ.regs.engine.clk = drivenAfter (s.answerAt 0) .low ∧
    (tick (tick s)).drv.get σ.regs.engine.latch = drivenAfter (s.answerAt 1) σ.regs.engine.latch.idle

/-- R25, R26, R23 (the model's session fields; log 8, 9): every primitive of the sequencer keeps the invariant. -/
def Obligations.TickKeepsTheInvariant : Prop :=
  ∀ s : State, s.Inv → (tick s).Inv

/-! ### Reset, the step, the host -/

/-- R150: after reset `drv` holds `INIT_LEVELS` on each of the five output lines, by default `X` on every one. -/
def Obligations.ResetLevels : Prop :=
  (∀ (init : OutLine → Driven) (L : OutLine), (State.resetWith init).drv.get L = init L) ∧
  ∀ L : OutLine, State.reset.drv.get L = .x

/-- R151 and R152 (derived in the spec): after reset, at any `INIT_LEVELS`, no session exists and every command is accepted. -/
def Obligations.ResetAcceptsEveryCommand : Prop :=
  ∀ (init : OutLine → Driven) (i : Instr), (State.resetWith init).session = none ∧
    ∃ t, exec i (State.resetWith init) = .next t ∧ t.session = none

/-- The invariant holds after reset. -/
def Obligations.ResetMeetsTheInvariant : Prop := State.reset.Inv

/-- R65, R64: when no session exists and the host's next act is to issue a word, the step is `exec` of the instruction the word
decodes to, on the state with that act taken from the host. The second clause, on a word placed by `withFetchWord`, is about the
model's own load of a word, which drops an open session (log 14), and about numbers as words (log 13): no rule gives it. -/
def Obligations.StepRunsTheIssuedCommand : Prop :=
  (∀ (s : State) (w : Word10) (rest : List HostOp), s.session = none → s.host = .issue w :: rest →
    step s = exec (decode w) { s with host := rest }) ∧
  ∀ (s : State) (n w : Nat) (i : Instr), decodeTableWord n w = some i →
    step (s.withFetchWord n w) = exec i { s with session := none }

/-- The model's choice (log 1): with nothing for the host to issue, a step changes nothing. -/
def Obligations.StepWithNothingToIssue : Prop :=
  ∀ s : State, s.session = none → s.host = [] → step s = .next s

/-- R65 (that the step of a state with an open session finishes it is the model's reading, log 5): the host is held, and the step
performs the rest of the session's command: it is the sequencer, one primitive after another, up to the first state in which the
session is gone. That takes between 1 and 37 primitives, each in the trace and on the session's engine, and hands over one
response; no act is taken from the host. -/
def Obligations.StepFinishesAnOpenSession : Prop :=
  ∀ (s : State) (σ : Session), s.session = some σ → σ.WF →
    ∃ n es rsp, step s = .next (tick^[n] s) ∧ 1 ≤ n ∧ n ≤ 37 ∧ (∀ m < n, (tick^[m] s).session ≠ none) ∧
      (tick^[n] s).session = none ∧ (tick^[n] s).host = s.host ∧ (tick^[n] s).trace = s.trace ++ es ∧ es.length = n ∧
      (∀ e ∈ es, e.engine = σ.regs.engine) ∧ (tick^[n] s).responses = s.responses ++ [rsp]

/-- R121 (two steps of the machine, the response to the first command between them, are the model's choice, log 12): MIRROR issues a
SHIFT_IN, the first step being exactly that command; if it responds OK, the second step is the SHIFT_OUT of the byte read,
unchanged; if not, nothing is issued: "the iteration's remaining shift-register steps are skipped". -/
def Obligations.MirrorIsReadThenWrite : Prop :=
  ∀ (s : State) (rest : List HostOp), s.session = none → s.host = .mirror :: rest →
    step s = exec (.shiftIn 0x00) { s with host := .mirrorWrite :: rest } ∧
    (s.OksFor 26 → ∃ t, step s = .next t ∧ t.host = .mirrorWrite :: rest ∧
      t.responses = s.responses ++ [responseWord .ok (xform (accAfter s.levelAt 8))] ∧
      step t = exec (.shiftOut (xform (accAfter s.levelAt 8))) { t with host := rest }) ∧
    ∀ n < 26, s.FailsAfter n →
      ∃ t, step s = .next t ∧ t.responses = s.responses ++ [0x100#10] ∧ step t = .next { t with host := rest }

/-- R120, R122 (two steps of the machine, and the loop's steps 3 to 6 left out, are log 12): the poll loop does a MIRROR and is then
to be done again, whatever happened. Its first step is that of a MIRROR with the loop after it; its second is the SHIFT_OUT of
the byte read if the SHIFT_IN responded OK, and issues nothing if it did not; the host then stands at the loop again. -/
def Obligations.PollLoopRepeats : Prop :=
  ∀ (s : State) (rest : List HostOp), s.session = none → s.host = .pollLoop :: rest →
    step s = step { s with host := .mirror :: .pollLoop :: rest } ∧
    step s = exec (.shiftIn 0x00) { s with host := .mirrorWrite :: .pollLoop :: rest } ∧
    ∃ t u, step s = .next t ∧ step t = .next u ∧ u.session = none ∧ u.host = .pollLoop :: rest ∧
      (s.OksFor 26 → .next u = exec (.shiftOut (xform (accAfter s.levelAt 8))) { t with host := .pollLoop :: rest }) ∧
      ∀ n < 26, s.FailsAfter n → u = { t with host := .pollLoop :: rest }

/-- R53: a host software layer hands the block `trunc_8(value)`: its word is `0x100` plus the value's low 8 bits. -/
def Obligations.HostLayerMasksWideValues : Prop :=
  ∀ value : Nat, hostShiftOut value = .issue (BitVec.ofNat 10 (0x100 + value % 256)) ∧
    ∀ w, hostShiftOut value = .issue w → decode w = .shiftOut (BitVec.ofNat 8 value)

/-- R71: the assembler's words are the table's, an `imm8` outside `0..255` is refused, not masked, and a `;` starts a comment. -/
def Obligations.AssemblerEncodesOrRefuses : Prop :=
  (∀ imm, imm < 256 → assemble (.shiftOut imm) = .ok (.issue (encode (.shiftOut (BitVec.ofNat 8 imm))))) ∧
  (∀ imm, 256 ≤ imm → assemble (.shiftOut imm) = .error (.operandTooWide imm)) ∧
  assemble .shiftIn = .ok (.issue 0x200#10) ∧
  (∀ imm, imm < 1024 → assemble (.word imm) = .ok (.issue (BitVec.ofNat 10 imm))) ∧
  ∀ line comment : List Char, asmRead (line ++ ';' :: comment) = asmRead line

/-- R30, R6, R20: the constants of CFG are the ones the rules are written with: each engine's sequence asserts its latch-enable at
its active level first, and last returns it to the other; the recovery returns the clock to `clk_idle`; the transform is the
align shift and the invert mask. -/
def Obligations.ConfigurationIsTheBoards : Prop :=
  (∀ v : Byte, seqOut v 1 = .write .soLatch Config.cfg.so.latchActive ∧
    seqOut v 35 = .write .soLatch Config.cfg.so.latchActive.flip ∧ seqOut v 34 = .write .soClk Config.cfg.clkIdle) ∧
  seqIn 1 = .write .siLatch Config.cfg.si.latchActive ∧ seqIn 26 = .write .siLatch Config.cfg.si.latchActive.flip ∧
  seqIn 25 = .write .siClk Config.cfg.clkIdle ∧
  (∀ e : Engine, recoveryWrite e 1 = (e.clk, Config.cfg.clkIdle)) ∧
  ∀ r : Byte, xform r = (r <<< Config.cfg.siAlign) ^^^ Config.cfg.siInvert

/-- R141, R143, R65: no step of the machine stops, from any state at all; and after a step from a state whose session, if there is
one, is within the ranges of R25, no session is left. For a state with an open session this rests on log 5 (the step finishes
it), outside the ranges on log 9, for a host with nothing to issue on log 1, and for every primitive's answer on log 15. -/
def Obligations.EveryStepGoesOn : Prop :=
  ∀ s : State, ∃ t, step s = .next t ∧ ((∀ σ, s.session = some σ → σ.WF) → t.session = none)

/-- R22, R23, R25, R66: every step keeps the invariant: the session within its ranges, every response legal, no engine left
half-open, and `drv` and the answers used accounted for by the trace. -/
def Obligations.StepKeepsTheInvariant : Prop :=
  ∀ s t : State, s.Inv → step s = .next t → t.Inv
end

