-- ==== Sys2Proof/Laws/State.lean ====
section
/-! SUPPORT. One lemma per field per update of the state, and the same for `drv`. -/

namespace Sys2Proof.Machine

@[simp] theorem Drv.get_set_self (d : Drv) (L : OutLine) (v : Driven) : (d.set L v).get L = v := by cases L <;> rfl

theorem Drv.get_set_ne (d : Drv) {L L' : OutLine} (v : Driven) (h : L' ≠ L) : (d.set L v).get L' = d.get L' := by
  cases L <;> cases L' <;> first | rfl | exact absurd rfl h

@[simp] theorem State.answered_drv (s : State) : s.answered.drv = s.drv := rfl
@[simp] theorem State.answered_session (s : State) : s.answered.session = s.session := rfl
@[simp] theorem State.answered_trace (s : State) : s.answered.trace = s.trace := rfl
@[simp] theorem State.answered_responses (s : State) : s.answered.responses = s.responses := rfl
@[simp] theorem State.answered_host (s : State) : s.answered.host = s.host := rfl
@[simp] theorem State.answered_answers (s : State) : s.answered.answers = s.answers.tail := rfl
@[simp] theorem State.answered_draws (s : State) : s.answered.draws = s.draws + 1 := rfl

@[simp] theorem State.perform_drv (s : State) (e : TraceEntry) : (s.perform e).drv = s.drv.record e := rfl
@[simp] theorem State.perform_session (s : State) (e : TraceEntry) : (s.perform e).session = s.session := rfl
@[simp] theorem State.perform_trace (s : State) (e : TraceEntry) : (s.perform e).trace = s.trace ++ [e] := rfl
@[simp] theorem State.perform_responses (s : State) (e : TraceEntry) : (s.perform e).responses = s.responses := rfl
@[simp] theorem State.perform_host (s : State) (e : TraceEntry) : (s.perform e).host = s.host := rfl
@[simp] theorem State.perform_answers (s : State) (e : TraceEntry) : (s.perform e).answers = s.answers.tail := rfl
@[simp] theorem State.perform_draws (s : State) (e : TraceEntry) : (s.perform e).draws = s.draws + 1 := rfl

@[simp] theorem respond_drv (st : Status) (b : Byte) (s : State) : (respond st b s).drv = s.drv := rfl
@[simp] theorem respond_session (st : Status) (b : Byte) (s : State) : (respond st b s).session = none := rfl
@[simp] theorem respond_trace (st : Status) (b : Byte) (s : State) : (respond st b s).trace = s.trace := rfl
@[simp] theorem respond_responses (st : Status) (b : Byte) (s : State) :
    (respond st b s).responses = s.responses ++ [responseWord st b] := rfl
@[simp] theorem respond_host (st : Status) (b : Byte) (s : State) : (respond st b s).host = s.host := rfl
@[simp] theorem respond_answers (st : Status) (b : Byte) (s : State) : (respond st b s).answers = s.answers := rfl
@[simp] theorem respond_draws (st : Status) (b : Byte) (s : State) : (respond st b s).draws = s.draws := rfl

@[simp] theorem openSession_drv (r : SessionRegs) (s : State) : (openSession r s).drv = s.drv := rfl
@[simp] theorem openSession_session (r : SessionRegs) (s : State) :
    (openSession r s).session = some { regs := r, k := 1, rk := 1, err := none } := rfl
@[simp] theorem openSession_trace (r : SessionRegs) (s : State) : (openSession r s).trace = s.trace := rfl
@[simp] theorem openSession_responses (r : SessionRegs) (s : State) : (openSession r s).responses = s.responses := rfl
@[simp] theorem openSession_host (r : SessionRegs) (s : State) : (openSession r s).host = s.host := rfl
@[simp] theorem openSession_answers (r : SessionRegs) (s : State) : (openSession r s).answers = s.answers := rfl
@[simp] theorem openSession_draws (r : SessionRegs) (s : State) : (openSession r s).draws = s.draws := rfl

@[simp] theorem State.setSession_drv (s : State) (o : Option Session) : (s.setSession o).drv = s.drv := rfl
@[simp] theorem State.setSession_session (s : State) (o : Option Session) : (s.setSession o).session = o := rfl
@[simp] theorem State.setSession_trace (s : State) (o : Option Session) : (s.setSession o).trace = s.trace := rfl
@[simp] theorem State.setSession_responses (s : State) (o : Option Session) :
    (s.setSession o).responses = s.responses := rfl
@[simp] theorem State.setSession_host (s : State) (o : Option Session) : (s.setSession o).host = s.host := rfl
@[simp] theorem State.setSession_answers (s : State) (o : Option Session) : (s.setSession o).answers = s.answers := rfl
@[simp] theorem State.setSession_draws (s : State) (o : Option Session) : (s.setSession o).draws = s.draws := rfl

@[simp] theorem State.setSession_setSession (s : State) (o o' : Option Session) :
    (s.setSession o).setSession o' = s.setSession o' := rfl

/-- A state whose session is `σ` is one whose session has been set to `σ`. -/
theorem State.eq_setSession {s : State} {o : Option Session} (h : s.session = o) : s = s.setSession o := by
  cases s; cases h; rfl

@[simp] theorem respond_setSession (st : Status) (b : Byte) (s : State) (o : Option Session) :
    respond st b (s.setSession o) = respond st b s := rfl

/-- Performing a list of primitives, field by field. -/
theorem State.performAll_append (s : State) (es fs : List TraceEntry) :
    s.performAll (es ++ fs) = (s.performAll es).performAll fs := List.foldl_append

theorem State.performAll_snoc (s : State) (es : List TraceEntry) (e : TraceEntry) :
    s.performAll (es ++ [e]) = (s.performAll es).perform e := State.performAll_append s es [e]

@[simp] theorem State.performAll_nil (s : State) : s.performAll [] = s := rfl

@[simp] theorem State.performAll_cons (s : State) (e : TraceEntry) (es : List TraceEntry) :
    s.performAll (e :: es) = (s.perform e).performAll es := rfl

@[simp] theorem Drv.replay_nil (d : Drv) : d.replay [] = d := rfl

@[simp] theorem Drv.replay_cons (d : Drv) (e : TraceEntry) (es : List TraceEntry) :
    d.replay (e :: es) = (d.record e).replay es := rfl

theorem Drv.replay_append (d : Drv) (es fs : List TraceEntry) : d.replay (es ++ fs) = (d.replay es).replay fs :=
  List.foldl_append

@[simp] theorem State.performAll_drv (s : State) (es : List TraceEntry) : (s.performAll es).drv = s.drv.replay es := by
  induction es generalizing s with
  | nil => rfl
  | cons e es ih => exact ih (s.perform e)

@[simp] theorem State.performAll_session (s : State) (es : List TraceEntry) : (s.performAll es).session = s.session := by
  induction es generalizing s with
  | nil => rfl
  | cons e es ih => exact ih (s.perform e)

@[simp] theorem State.performAll_trace (s : State) (es : List TraceEntry) : (s.performAll es).trace = s.trace ++ es := by
  induction es generalizing s with
  | nil => simp
  | cons e es ih => rw [State.performAll_cons, ih]; simp

@[simp] theorem State.performAll_responses (s : State) (es : List TraceEntry) :
    (s.performAll es).responses = s.responses := by
  induction es generalizing s with
  | nil => rfl
  | cons e es ih => exact ih (s.perform e)

@[simp] theorem State.performAll_host (s : State) (es : List TraceEntry) : (s.performAll es).host = s.host := by
  induction es generalizing s with
  | nil => rfl
  | cons e es ih => exact ih (s.perform e)

@[simp] theorem State.performAll_answers (s : State) (es : List TraceEntry) :
    (s.performAll es).answers = s.answers.drop es.length := by
  induction es generalizing s with
  | nil => rfl
  | cons e es ih => rw [State.performAll_cons, ih]; simp

@[simp] theorem State.performAll_draws (s : State) (es : List TraceEntry) :
    (s.performAll es).draws = s.draws + es.length := by
  induction es generalizing s with
  | nil => rfl
  | cons e es ih => rw [State.performAll_cons, ih]; simp; omega

/-- A session opened or dropped does not see what was performed, nor the other way round. -/
theorem State.perform_setSession (s : State) (o : Option Session) (e : TraceEntry) :
    (s.setSession o).perform e = (s.perform e).setSession o := rfl

theorem State.performAll_setSession (s : State) (o : Option Session) (es : List TraceEntry) :
    (s.setSession o).performAll es = (s.performAll es).setSession o := by
  induction es generalizing s with
  | nil => rfl
  | cons e es ih => exact ih (s.perform e)

/-- The next answer is the one 0 primitives from now, and performing a primitive moves the others up by one. -/
theorem State.nextAnswer_eq (s : State) : s.nextAnswer = s.answerAt 0 := by
  cases h : s.answers <;> simp [State.nextAnswer, State.answerAt, h]

@[simp] theorem State.answerAt_setSession (s : State) (o : Option Session) (j : Nat) :
    (s.setSession o).answerAt j = s.answerAt j := rfl

theorem State.answerAt_perform (s : State) (e : TraceEntry) (j : Nat) :
    (s.perform e).answerAt j = s.answerAt (j + 1) := by
  cases h : s.answers with
  | nil => simp only [State.answerAt, State.perform_answers, State.perform_draws, h]; simp [Nat.add_assoc, Nat.add_comm 1]
  | cons a as => simp only [State.answerAt, State.perform_answers, State.perform_draws, h]; simp [Nat.add_assoc, Nat.add_comm 1]

theorem State.answerAt_performAll (s : State) (es : List TraceEntry) (j : Nat) :
    (s.performAll es).answerAt j = s.answerAt (es.length + j) := by
  induction es generalizing s with
  | nil => simp
  | cons e es ih => rw [State.performAll_cons, ih, State.answerAt_perform]; congr 1; simp; omega

end Sys2Proof.Machine
end

