-- ==== Sys2Proof/Laws/Ops.lean ====
section
/-! SUPPORT. What each shared operation can do, said once. -/

namespace Sys2Proof.Machine

/-- R44: a write that the backend answers `ok` records its level. -/
theorem lineWrite_ok {s : State} {lvl' : Level} (L : OutLine) (lvl : Level) (h : s.answerAt 0 = .ok lvl') :
    lineWrite L lvl s = (.ok, s.perform (.write L lvl .ok)) := by
  simp [lineWrite, State.nextAnswer_eq, h, answerResult]

/-- R44: a write that the backend answers `fail` records `X`. -/
theorem lineWrite_fail {s : State} (L : OutLine) (lvl : Level) (h : s.answerAt 0 = .fail) :
    lineWrite L lvl s = (.fail, s.perform (.write L lvl .fail)) := by
  simp [lineWrite, State.nextAnswer_eq, h, answerResult]

/-- R45: a read returns the backend's answer and writes no `drv` entry. -/
theorem lineRead_eq (s : State) : lineRead s = (s.answerAt 0, s.perform (.read (s.answerAt 0))) := by
  simp [lineRead, State.nextAnswer_eq]

/-- A command is accepted exactly where no session exists (R64, R65). -/
theorem accept_idle {s : State} (h : s.session = none) (run : State → State) : accept s run = .next (run s) := by
  simp [accept, h]

theorem accept_busy {s : State} {σ : Session} (h : s.session = some σ) (run : State → State) :
    accept s run = .fault .hostHeld := by
  simp [accept, h]

theorem tick_main {s : State} {σ : Session} (he : σ.err = none) :
    tick (s.setSession (some σ)) = mainTick σ (s.setSession (some σ)) := by
  simp only [tick, State.setSession_session]; rw [he]

/-- The program counter advances by one, except after the last primitive (R26). -/
theorem advance_next {r : SessionRegs} {k : Nat} (h : k < r.last) (rk : Nat) (err : Option Nat) (s : State) :
    advance ⟨r, k, rk, err⟩ s = s.setSession (some ⟨r, k + 1, rk, err⟩) := if_pos h

theorem advance_last {r : SessionRegs} {k : Nat} (h : r.last ≤ k) (rk : Nat) (err : Option Nat) (s : State) :
    advance ⟨r, k, rk, err⟩ s = respondOk ⟨r, k, rk, err⟩ s := if_neg (Nat.not_lt.mpr h)

/-- One primitive of a main sequence that the backend answers `ok`: a write. -/
theorem tick_main_write_ok {s : State} {r : SessionRegs} {k rk : Nat} {L : OutLine} {lvl lvl' : Level}
    (hp : r.prim k = .write L lvl) (ha : s.answerAt 0 = .ok lvl') :
    tick (s.setSession (some ⟨r, k, rk, none⟩)) =
      advance ⟨r.afterWrite k, k, rk, none⟩ ((s.perform (.write L lvl .ok)).setSession (some ⟨r, k, rk, none⟩)) := by
  rw [tick_main rfl, mainTick, hp]
  simp only [lineWrite_ok (s := s.setSession (some ⟨r, k, rk, none⟩)) L lvl ha, State.perform_setSession]

/-- One primitive of a main sequence that the backend answers `ok`: a read. -/
theorem tick_main_read_ok {s : State} {r : SessionRegs} {k rk : Nat} {lvl : Level}
    (hp : r.prim k = .read) (ha : s.answerAt 0 = .ok lvl) :
    tick (s.setSession (some ⟨r, k, rk, none⟩)) =
      advance ⟨r.afterRead k lvl, k, rk, none⟩ ((s.perform (.read (.ok lvl))).setSession (some ⟨r, k, rk, none⟩)) := by
  rw [tick_main rfl, mainTick, hp]
  simp only [lineRead_eq, State.answerAt_setSession, ha, State.perform_setSession]

/-- One primitive of a main sequence that the backend answers `fail`: the LineError is raised at it (R132, R133). -/
theorem tick_main_fail {s : State} {σ : Session} (he : σ.err = none) (ha : s.answerAt 0 = .fail) :
    tick (s.setSession (some σ)) = raiseLineError σ (s.perform (failEntry (σ.regs.prim σ.k))) := by
  rw [tick_main he, mainTick]
  cases hp : σ.regs.prim σ.k with
  | write L lvl => simp only [lineWrite_fail (s := s.setSession (some σ)) L lvl ha, failEntry]; rfl
  | read => simp only [lineRead_eq, State.answerAt_setSession, ha, failEntry]; rfl

/-- One write of a recovery sequence, whatever the backend answers (R134, R135). -/
theorem tick_recovery {s : State} {σ : Session} {e : Nat} (he : σ.err = some e) :
    tick (s.setSession (some σ)) =
      if σ.rk < 2 then
        (s.perform (recoveryEntry σ.regs.engine σ.rk (s.answerAt 0))).setSession (some { σ with rk := σ.rk + 1 })
      else respond .lineError 0x00 (s.perform (recoveryEntry σ.regs.engine σ.rk (s.answerAt 0))) := by
  simp only [tick, State.setSession_session]
  rw [he]
  simp only [recoveryTick, lineWrite, State.nextAnswer_eq, State.answerAt_setSession, recoveryEntry]
  split <;> simp [he, State.perform_setSession]

theorem tick_none {s : State} (h : s.session = none) : tick s = s := by simp [tick, h]

theorem runSession_none {s : State} (h : s.session = none) (n : Nat) : runSession n s = s := by
  cases n <;> simp [runSession, h]

theorem runSession_some {s : State} {σ : Session} (h : s.session = some σ) (n : Nat) :
    runSession (n + 1) s = runSession n (tick s) := by simp [runSession, h]

/-- A session with a LineError performs its remaining recovery writes and responds LINE_ERROR (R133 to R137). -/
theorem runSession_recovery (n : Nat) (s : State) (σ : Session) {e : Nat} (he : σ.err = some e) (hr : σ.rk = 1) :
    runSession (n + 2) (s.setSession (some σ)) =
      respond .lineError 0x00
        (s.performAll [recoveryEntry σ.regs.engine 1 (s.answerAt 0), recoveryEntry σ.regs.engine 2 (s.answerAt 1)]) := by
  rw [runSession_some rfl, tick_recovery he, if_pos (by omega), runSession_some rfl,
    tick_recovery (σ := { σ with rk := σ.rk + 1 }) he, if_neg (by simp; omega), runSession_none rfl]
  simp [hr, State.answerAt_perform]

/-- A main sequence whose next primitive fails: the LineError, the recovery, the response (R133). -/
theorem runSession_fail (n : Nat) (s : State) (σ : Session) (he : σ.err = none) (ha : s.answerAt 0 = .fail) :
    runSession (n + 3) (s.setSession (some σ)) =
      respond .lineError 0x00
        (s.performAll [failEntry (σ.regs.prim σ.k), recoveryEntry σ.regs.engine 1 (s.answerAt 1),
          recoveryEntry σ.regs.engine 2 (s.answerAt 2)]) := by
  rw [runSession_some rfl, tick_main_fail he ha]
  simp only [raiseLineError]
  rw [runSession_recovery n _ { σ with err := some σ.k, rk := 1 } rfl rfl]
  simp [State.answerAt_perform]

end Sys2Proof.Machine
end

