-- ==== Sys2Proof/Laws/PerInstr.lean ====
section
/-! SUPPORT. One lemma per constructor of `Instr` for the family "Encoding": the word of an instruction lies in its own row of the
opcode map, and its two fields are the instruction's (R61, R62). -/

namespace Sys2Proof.Laws.Encoding

/-- The instruction's word carries its `OP` and its data field, and its row of the opcode map covers it. -/
def Statement (i : Instr) : Prop :=
  opField (encode i) = i.op ∧ dataField (encode i) = i.data ∧ i.row.covers (encode i) = true

theorem shiftOut (v : Byte) : Statement (.shiftOut v) := by
  unfold Statement; revert v; decide

theorem shiftIn (data : Byte) : Statement (.shiftIn data) := by
  unfold Statement; revert data; decide

theorem reserved00 (data : Byte) : Statement (.reserved00 data) := by
  unfold Statement; revert data; decide

theorem reserved11 (data : Byte) : Statement (.reserved11 data) := by
  unfold Statement; revert data; decide

end Sys2Proof.Laws.Encoding
end

