-- ==== Sys2Proof/Laws/Sequencer.lean ====
section
/-! SUPPORT. What a whole command does, said once: the main sequence while its primitives answer `ok`, the end of each command,
and one inversion lemma for both (R82, R102, R133 to R137). -/

namespace Sys2Proof.Machine

/-- The first `n` entries of SHIFT_OUT `v`'s trace when its first `n` primitives answer `ok` (R81, R11). -/
def okEntriesOut (v : Byte) : Nat → List TraceEntry
  | 0 => []
  | n + 1 => okEntriesOut v n ++ [okEntry (seqOut v (n + 1)) .low]

/-- The first `n` entries of SHIFT_IN's trace when its first `n` primitives answer `ok`, the read `j` primitives from the start
returning `lvls j` (R101, R11). -/
def okEntriesIn (lvls : Nat → Level) : Nat → List TraceEntry
  | 0 => []
  | n + 1 => okEntriesIn lvls n ++ [okEntry (seqIn (n + 1)) (lvls n)]

/-- Every primitive of `seq_out` is a write of a serializer line (R40, R43). -/
theorem seqOut_write (v : Byte) (k : Nat) : ∃ L lvl, seqOut v k = .write L lvl ∧ L.engine = .serializer := by
  unfold seqOut
  split
  · exact ⟨_, _, rfl, rfl⟩
  · split
    · split <;> exact ⟨_, _, rfl, rfl⟩
    · split <;> exact ⟨_, _, rfl, rfl⟩

/-- Every primitive of `seq_in` is a write of a deserializer line, or the read (R40, R43). -/
theorem seqIn_cases (k : Nat) : seqIn k = .read ∨ ∃ L lvl, seqIn k = .write L lvl ∧ L.engine = .deserializer := by
  unfold seqIn
  split
  · exact .inr ⟨_, _, rfl, rfl⟩
  · split
    · split <;> first | exact .inl rfl | exact .inr ⟨_, _, rfl, rfl⟩
    · exact .inr ⟨_, _, rfl, rfl⟩

/-- Which primitives of SHIFT_IN's main sequence are reads: `k = 3 + 3i` (R101). -/
theorem seqIn_read_iff {k : Nat} (h1 : 1 ≤ k) (h2 : k ≤ 26) : seqIn k = .read ↔ k % 3 = 0 := by
  revert h1; revert h2; revert k; decide

theorem okEntriesOut_length (v : Byte) (n : Nat) : (okEntriesOut v n).length = n := by
  induction n with
  | zero => rfl
  | succ n ih => simp [okEntriesOut, ih]

theorem okEntriesIn_length (lvls : Nat → Level) (n : Nat) : (okEntriesIn lvls n).length = n := by
  induction n with
  | zero => rfl
  | succ n ih => simp [okEntriesIn, ih]

theorem State.OksFor.mono {s : State} {m n : Nat} (h : s.OksFor n) (hm : m ≤ n) : s.OksFor m :=
  fun j hj => h j (Nat.lt_of_lt_of_le hj hm)

/-- The next `n` primitives all answer `ok`, or there is a first that fails. -/
theorem State.oks_or_fails (s : State) (n : Nat) : s.OksFor n ∨ ∃ m < n, s.FailsAfter m := by
  induction n with
  | zero => exact .inl fun j hj => absurd hj (Nat.not_lt_zero j)
  | succ n ih =>
    rcases ih with h | ⟨m, hm, h⟩
    · cases ha : s.answerAt n with
      | fail => exact .inr ⟨n, Nat.lt_succ_self n, h, ha⟩
      | ok lvl =>
        refine .inl fun j hj => ?_
        rcases Nat.lt_succ_iff_lt_or_eq.mp hj with hj | rfl
        · exact h j hj
        · rw [ha]; exact Answer.noConfusion
    · exact .inr ⟨m, Nat.lt_succ_of_lt hm, h⟩

theorem State.OksFor.answer {s : State} {n j : Nat} (h : s.OksFor n) (hj : j < n) : s.answerAt j = .ok (s.levelAt j) := by
  cases ha : s.answerAt j with
  | fail => exact absurd ha (h j hj)
  | ok lvl => simp [State.levelAt, ha]

/-- R81's table, written out. -/
theorem outSeq_eq (v : Byte) : outSeq v =
  [.write .soLatch .low,
   .write .soClk .low, .write .soData (valueLevel v 0), .write .soClk .high, .write .soData .low,
   .write .soClk .low, .write .soData (valueLevel v 1), .write .soClk .high, .write .soData .low,
   .write .soClk .low, .write .soData (valueLevel v 2), .write .soClk .high, .write .soData .low,
   .write .soClk .low, .write .soData (valueLevel v 3), .write .soClk .high, .write .soData .low,
   .write .soClk .low, .write .soData (valueLevel v 4), .write .soClk .high, .write .soData .low,
   .write .soClk .low, .write .soData (valueLevel v 5), .write .soClk .high, .write .soData .low,
   .write .soClk .low, .write .soData (valueLevel v 6), .write .soClk .high, .write .soData .low,
   .write .soClk .low, .write .soData (valueLevel v 7), .write .soClk .high, .write .soData .low,
   .write .soClk .low, .write .soLatch .high] := rfl

/-- R101's table, written out. -/
theorem inSeq_eq : inSeq =
  [.write .siLatch .high,
   .write .siClk .high, .read, .write .siClk .low,
   .write .siClk .high, .read, .write .siClk .low,
   .write .siClk .high, .read, .write .siClk .low,
   .write .siClk .high, .read, .write .siClk .low,
   .write .siClk .high, .read, .write .siClk .low,
   .write .siClk .high, .read, .write .siClk .low,
   .write .siClk .high, .read, .write .siClk .low,
   .write .siClk .high, .read, .write .siClk .low,
   .write .siLatch .low] := rfl

/-- R81's list and `seq_out(V)[k]` are one sequence. -/
theorem outSeq_getElem? (v : Byte) {n : Nat} (hn : n < 35) : (outSeq v)[n]? = some (seqOut v (n + 1)) := by
  interval_cases n <;> rfl

/-- R101's list and `seq_in[k]` are one sequence. -/
theorem inSeq_getElem? {n : Nat} (hn : n < 26) : inSeq[n]? = some (seqIn (n + 1)) := by
  interval_cases n <;> rfl

@[simp] theorem okEntries_length (ps : List Prim) (lvls : Nat → Level) : (okEntries ps lvls).length = ps.length := by
  induction ps generalizing lvls with
  | nil => rfl
  | cons p ps ih => simp [okEntries, ih]

theorem okEntries_take_succ {ps : List Prim} {n : Nat} {p : Prim} (h : ps[n]? = some p) (lvls : Nat → Level) :
    okEntries (ps.take (n + 1)) lvls = okEntries (ps.take n) lvls ++ [okEntry p (lvls n)] := by
  induction n generalizing ps lvls with
  | zero =>
    cases ps with
    | nil => simp at h
    | cons q ps => simp at h; simp [okEntries, h]
  | succ n ih =>
    cases ps with
    | nil => simp at h
    | cons q ps => simp at h; simp [okEntries, ih h]

/-- The entries, one by one, are R81's list. -/
theorem okEntriesOut_eq (v : Byte) (lvls : Nat → Level) {n : Nat} (hn : n ≤ 35) :
    okEntriesOut v n = okEntries ((outSeq v).take n) lvls := by
  induction n with
  | zero => simp [okEntriesOut, okEntries]
  | succ n ih =>
    obtain ⟨L, lvl, hp, -⟩ := seqOut_write v (n + 1)
    rw [okEntriesOut, ih (by omega), okEntries_take_succ (outSeq_getElem? v (by omega)), hp]
    rfl

/-- The entries, one by one, are R101's list. -/
theorem okEntriesIn_eq (lvls : Nat → Level) {n : Nat} (hn : n ≤ 26) :
    okEntriesIn lvls n = okEntries (inSeq.take n) lvls := by
  induction n with
  | zero => simp [okEntriesIn, okEntries]
  | succ n ih => rw [okEntriesIn, ih (by omega), okEntries_take_succ (inSeq_getElem? (by omega))]

theorem respond_performAll (s : State) (st : Status) (b : Byte) (es : List TraceEntry) :
    respond st b (s.performAll es) = s.afterCommand es (responseWord st b) := by
  have h : ∀ t : State, respond st b t =
      ⟨t.drv, none, t.trace, t.responses ++ [responseWord st b], t.host, t.answers, t.draws⟩ := fun t => rfl
  rw [h]; simp [State.afterCommand]

/-- SHIFT_OUT after `n` primitives that answered `ok`, the last one not among them. -/
theorem runOut_ok (v : Byte) (s : State) (m : Nat) {n : Nat} (hn : n ≤ 34) (h : s.OksFor n) :
    runSession (n + m) (openSession (.shiftOut v) s) =
      runSession m ((s.performAll (okEntriesOut v n)).setSession (some ⟨.shiftOut v, n + 1, 1, none⟩)) := by
  induction n generalizing m with
  | zero => rw [Nat.zero_add]; rfl
  | succ n ih =>
    rw [Nat.add_assoc, Nat.add_comm 1 m, ih (m + 1) (by omega) (h.mono (by omega)), runSession_some rfl]
    obtain ⟨L, lvl, hp, -⟩ := seqOut_write v (n + 1)
    have ha : (s.performAll (okEntriesOut v n)).answerAt 0 = .ok (s.levelAt n) := by
      rw [State.answerAt_performAll, okEntriesOut_length, Nat.add_zero, h.answer (Nat.lt_succ_self n)]
    rw [tick_main_write_ok (r := .shiftOut v) hp ha, SessionRegs.afterWrite,
      advance_next (show n + 1 < lastOut by unfold lastOut; omega)]
    simp only [okEntriesOut, okEntry, hp, State.performAll_snoc, State.setSession_setSession]

/-- SHIFT_OUT when all its primitives answer `ok` (R82). -/
theorem runCommand_out_ok (v : Byte) {s : State} (h : s.OksFor 35) :
    runCommand (.shiftOut v) s = respond .ok 0x00 (s.performAll (okEntriesOut v 35)) := by
  rw [runCommand, finishSession, show maxPrimitives = 34 + 3 from rfl, runOut_ok v s 3 (Nat.le_refl 34) (h.mono (by omega)),
    runSession_some rfl]
  have ha : (s.performAll (okEntriesOut v 34)).answerAt 0 = .ok (s.levelAt 34) := by
    rw [State.answerAt_performAll, okEntriesOut_length, Nat.add_zero, h.answer (by omega)]
  rw [tick_main_write_ok (r := .shiftOut v) (show seqOut v (34 + 1) = .write .soLatch .high from rfl) ha,
    SessionRegs.afterWrite, advance_last (show lastOut ≤ 34 + 1 from Nat.le_refl 35), respondOk, respond_setSession,
    runSession_none (respond_session _ _ _),
    show okEntriesOut v 35 = okEntriesOut v 34 ++ [.write .soLatch .high .ok] from rfl, State.performAll_snoc]

/-- What a command performs once its primitive `n + 1` fails: that primitive, then the two recovery writes (R133, R134). -/
def failTail (r : SessionRegs) (n : Nat) (s : State) : List TraceEntry :=
  [failEntry (r.prim (n + 1)), recoveryEntry r.engine 1 (s.answerAt (n + 1)), recoveryEntry r.engine 2 (s.answerAt (n + 2))]

/-- SHIFT_OUT when its primitive `n + 1` is the first to fail (R82, R133). -/
theorem runCommand_out_fail (v : Byte) {s : State} {n : Nat} (hn : n < 35) (h : s.FailsAfter n) :
    runCommand (.shiftOut v) s =
      respond .lineError 0x00 (s.performAll (okEntriesOut v n ++ failTail (.shiftOut v) n s)) := by
  have ha : ∀ j, (s.performAll (okEntriesOut v n)).answerAt j = s.answerAt (n + j) := fun j => by
    rw [State.answerAt_performAll, okEntriesOut_length]
  rw [runCommand, finishSession, show maxPrimitives = n + (34 - n + 3) by unfold maxPrimitives; omega,
    runOut_ok v s _ (by omega) h.1, runSession_fail _ _ ⟨.shiftOut v, n + 1, 1, none⟩ rfl (by rw [ha]; exact h.2)]
  simp only [ha, State.performAll_append, failTail]

/-- The session's registers after `n` primitives of SHIFT_IN that answered `ok` (R101, R102). -/
def regsAfterIn (acc : Byte) (lvls : Nat → Level) : Nat → SessionRegs
  | 0 => .shiftIn acc
  | n + 1 => .shiftIn (accAfter lvls ((n + 1) / 3))

/-- SHIFT_IN after `n` primitives that answered `ok`, the last one not among them. -/
theorem runIn_ok (acc : Byte) (s : State) (m : Nat) {n : Nat} (hn : n ≤ 25) (h : s.OksFor n) :
    runSession (n + m) (openSession (.shiftIn acc) s) =
      runSession m
        ((s.performAll (okEntriesIn s.levelAt n)).setSession (some ⟨regsAfterIn acc s.levelAt n, n + 1, 1, none⟩)) := by
  induction n generalizing m with
  | zero => rw [Nat.zero_add]; rfl
  | succ n ih =>
    rw [Nat.add_assoc, Nat.add_comm 1 m, ih (m + 1) (by omega) (h.mono (by omega)), runSession_some rfl]
    have ha : (s.performAll (okEntriesIn s.levelAt n)).answerAt 0 = .ok (s.levelAt n) := by
      rw [State.answerAt_performAll, okEntriesIn_length, Nat.add_zero, h.answer (Nat.lt_succ_self n)]
    have hk : ∀ r : SessionRegs, r.last = lastIn → n + 1 < r.last := fun r hr => by rw [hr]; unfold lastIn; omega
    rcases seqIn_cases (n + 1) with hp | ⟨L, lvl, hp, -⟩
    · have h3 : (n + 1) % 3 = 0 := (seqIn_read_iff (by omega) (by omega)).mp hp
      obtain ⟨i, rfl⟩ : ∃ i, n = 2 + 3 * i := ⟨(n + 1) / 3 - 1, by omega⟩
      have hr : regsAfterIn acc s.levelAt (2 + 3 * i) = .shiftIn (accAfter s.levelAt i) := by
        rw [show 2 + 3 * i = (1 + 3 * i) + 1 by omega, regsAfterIn, show (1 + 3 * i + 1) / 3 = i by omega]
      have hr' : regsAfterIn acc s.levelAt (2 + 3 * i + 1) = .shiftIn (accAfter s.levelAt (i + 1)) := by
        rw [regsAfterIn, show (2 + 3 * i + 1) / 3 = i + 1 by omega]
      rw [hr, tick_main_read_ok (r := .shiftIn _) hp ha, SessionRegs.afterRead, advance_next (hk _ rfl), hr']
      simp only [okEntriesIn, okEntry, hp, State.performAll_snoc, State.setSession_setSession, accAfter, inSlot,
        show (2 + 3 * i + 1 - 2) / 3 = i by omega]
    · have h3 : (n + 1) % 3 ≠ 0 := fun h3 => by
        rw [(seqIn_read_iff (k := n + 1) (by omega) (by omega)).mpr h3] at hp; cases hp
      have hr : ∃ b, regsAfterIn acc s.levelAt n = .shiftIn b ∧
          regsAfterIn acc s.levelAt (n + 1) = (SessionRegs.shiftIn b).afterWrite (n + 1) := by
        cases n with
        | zero => exact ⟨acc, rfl, rfl⟩
        | succ n =>
          refine ⟨_, rfl, ?_⟩
          rw [regsAfterIn, SessionRegs.afterWrite, if_neg (by omega), show (n + 1 + 1) / 3 = (n + 1) / 3 by omega]
      obtain ⟨b, hb, hb'⟩ := hr
      rw [hb, tick_main_write_ok (r := .shiftIn b) hp ha,
        advance_next (hk _ (by simp only [SessionRegs.afterWrite]; split <;> rfl)), hb']
      simp only [okEntriesIn, okEntry, hp, State.performAll_snoc, State.setSession_setSession]

/-- SHIFT_IN when all its primitives answer `ok` (R102, R103, R104). -/
theorem runCommand_in_ok (acc : Byte) {s : State} (h : s.OksFor 26) :
    runCommand (.shiftIn acc) s =
      respond .ok (xform (accAfter s.levelAt 8)) (s.performAll (okEntriesIn s.levelAt 26)) := by
  rw [runCommand, finishSession, show maxPrimitives = 25 + 12 from rfl, runIn_ok acc s 12 (Nat.le_refl 25) (h.mono (by omega)),
    runSession_some rfl]
  have ha : (s.performAll (okEntriesIn s.levelAt 25)).answerAt 0 = .ok (s.levelAt 25) := by
    rw [State.answerAt_performAll, okEntriesIn_length, Nat.add_zero, h.answer (by omega)]
  rw [show regsAfterIn acc s.levelAt 25 = .shiftIn (accAfter s.levelAt 8) from rfl,
    tick_main_write_ok (r := .shiftIn _) (show seqIn (25 + 1) = .write .siLatch .low from rfl) ha,
    SessionRegs.afterWrite, if_neg (by decide), advance_last (show lastIn ≤ 25 + 1 from Nat.le_refl 26), respondOk,
    runSession_none (respond_session _ _ _),
    show okEntriesIn s.levelAt 26 = okEntriesIn s.levelAt 25 ++ [.write .siLatch .low .ok] from rfl, State.performAll_snoc,
    respond_setSession]

/-- SHIFT_IN when its primitive `n + 1` is the first to fail (R102, R133, R108). -/
theorem runCommand_in_fail (acc : Byte) {s : State} {n : Nat} (hn : n < 26) (h : s.FailsAfter n) :
    runCommand (.shiftIn acc) s =
      respond .lineError 0x00 (s.performAll (okEntriesIn s.levelAt n ++ failTail (.shiftIn acc) n s)) := by
  have ha : ∀ j, (s.performAll (okEntriesIn s.levelAt n)).answerAt j = s.answerAt (n + j) := fun j => by
    rw [State.answerAt_performAll, okEntriesIn_length]
  have hr : ∃ b, regsAfterIn acc s.levelAt n = .shiftIn b := by cases n <;> exact ⟨_, rfl⟩
  obtain ⟨b, hb⟩ := hr
  rw [runCommand, finishSession, show maxPrimitives = n + (34 - n + 3) by unfold maxPrimitives; omega,
    runIn_ok acc s _ (by omega) h.1, hb, runSession_fail _ _ ⟨.shiftIn b, n + 1, 1, none⟩ rfl (by rw [ha]; exact h.2)]
  simp only [ha, State.performAll_append, failTail, SessionRegs.prim, SessionRegs.engine]

theorem recoveryEntry_engine (e : Engine) (rk : Nat) (a : Answer) : (recoveryEntry e rk a).engine = e := by
  cases e <;> simp only [recoveryEntry, recoveryWrite, TraceEntry.engine] <;> split <;> rfl

theorem prim_engine (r : SessionRegs) (k : Nat) : (failEntry (r.prim k)).engine = r.engine := by
  cases r with
  | shiftOut v =>
    obtain ⟨L, lvl, hp, hL⟩ := seqOut_write v k
    simp [SessionRegs.prim, hp, failEntry, TraceEntry.engine, hL, SessionRegs.engine]
  | shiftIn acc =>
    rcases seqIn_cases k with hp | ⟨L, lvl, hp, hL⟩
    · simp [SessionRegs.prim, hp, failEntry, TraceEntry.engine, SessionRegs.engine]
    · simp [SessionRegs.prim, hp, failEntry, TraceEntry.engine, hL, SessionRegs.engine]

theorem okEntriesOut_engine (v : Byte) (n : Nat) : ∀ e ∈ okEntriesOut v n, e.engine = .serializer := by
  induction n with
  | zero => simp [okEntriesOut]
  | succ n ih =>
    obtain ⟨L, lvl, hp, hL⟩ := seqOut_write v (n + 1)
    simp only [okEntriesOut, okEntry, hp, List.mem_append, List.mem_singleton]
    rintro e (he | rfl)
    · exact ih e he
    · exact hL

theorem okEntriesIn_engine (lvls : Nat → Level) (n : Nat) : ∀ e ∈ okEntriesIn lvls n, e.engine = .deserializer := by
  induction n with
  | zero => simp [okEntriesIn]
  | succ n ih =>
    simp only [okEntriesIn, List.mem_append, List.mem_singleton]
    rintro e (he | rfl)
    · exact ih e he
    · rcases seqIn_cases (n + 1) with hp | ⟨L, lvl, hp, hL⟩
      · rw [hp]; rfl
      · rw [hp]; exact hL

/-- What any command with a session does, whatever the backend answers: it performs primitives of its own engine only, at least
one and at most 37, and responds (R40, R65, R143). -/
theorem runCommand_cases (r : SessionRegs) (s : State) :
    ∃ es st b, runCommand r s = respond st b (s.performAll es) ∧ (∀ e ∈ es, e.engine = r.engine) ∧
      1 ≤ es.length ∧ es.length ≤ 37 := by
  cases r with
  | shiftOut v =>
    rcases s.oks_or_fails 35 with h | ⟨n, hn, h⟩
    · exact ⟨_, _, _, runCommand_out_ok v h, okEntriesOut_engine v 35, by simp [okEntriesOut_length],
        by simp [okEntriesOut_length]⟩
    · refine ⟨_, _, _, runCommand_out_fail v hn h, ?_, by simp [failTail], by simp [okEntriesOut_length, failTail]; omega⟩
      intro e he
      rcases List.mem_append.mp he with he | he
      · exact okEntriesOut_engine v n e he
      · simp only [failTail, List.mem_cons, List.not_mem_nil, or_false] at he
        rcases he with rfl | rfl | rfl
        · exact prim_engine _ _
        · exact recoveryEntry_engine _ _ _
        · exact recoveryEntry_engine _ _ _
  | shiftIn acc =>
    rcases s.oks_or_fails 26 with h | ⟨n, hn, h⟩
    · exact ⟨_, _, _, runCommand_in_ok acc h, okEntriesIn_engine s.levelAt 26, by simp [okEntriesIn_length],
        by simp [okEntriesIn_length]⟩
    · refine ⟨_, _, _, runCommand_in_fail acc hn h, ?_, by simp [failTail], by simp [okEntriesIn_length, failTail]; omega⟩
      intro e he
      rcases List.mem_append.mp he with he | he
      · exact okEntriesIn_engine s.levelAt n e he
      · simp only [failTail, List.mem_cons, List.not_mem_nil, or_false] at he
        rcases he with rfl | rfl | rfl
        · exact prim_engine _ _
        · exact recoveryEntry_engine _ _ _
        · exact recoveryEntry_engine _ _ _

/-- Entries of one engine leave the lines of the other as they were. -/
theorem Drv.replay_other {d : Drv} {es : List TraceEntry} {en : Engine} {L : OutLine} (h : ∀ e ∈ es, e.engine = en)
    (hL : L.engine ≠ en) : (d.replay es).get L = d.get L := by
  induction es generalizing d with
  | nil => rfl
  | cons e es ih =>
    rw [Drv.replay_cons, ih fun e' he' => h e' (List.mem_cons_of_mem _ he')]
    have he := h e List.mem_cons_self
    cases e with
    | read a => rfl
    | write L' lvl r =>
      have hne : L ≠ L' := fun h' => hL (h' ▸ he)
      cases r <;> exact Drv.get_set_ne _ _ hne

end Sys2Proof.Machine
end

