-- ==== Sys2Proof/Laws/Session.lean ====
section
/-! SUPPORT. What the sequencer and the host do from any state: one primitive that answers `ok`, said once for both engines; an
open session run to its response (R65); what an instruction needs to have a next state; what the host's act changes. -/

namespace Sys2Proof.Machine

theorem shiftOut_prim_ne_read (v : Byte) (k : Nat) : (SessionRegs.shiftOut v).prim k ≠ .read := by
  obtain ⟨L, l, h, -⟩ := seqOut_write v k
  rw [SessionRegs.prim, h]
  exact Prim.noConfusion

/-- One primitive that answers `ok`, a write or the read: the registers stay those of the same engine, the rest is `advance`. -/
theorem tick_main_ok {s : State} {lvl : Level} (ha : s.answerAt 0 = .ok lvl) (r : SessionRegs) (k rk : Nat) :
    ∃ r', r'.engine = r.engine ∧ tick (s.setSession (some ⟨r, k, rk, none⟩)) =
      advance ⟨r', k, rk, none⟩ ((s.perform (okEntry (r.prim k) lvl)).setSession (some ⟨r, k, rk, none⟩)) := by
  cases hp : r.prim k with
  | write L l =>
    refine ⟨r.afterWrite k, ?_, tick_main_write_ok hp ha⟩
    cases r with
    | shiftOut v => rfl
    | shiftIn acc => simp only [SessionRegs.afterWrite]; split <;> rfl
  | read => exact ⟨r.afterRead k lvl, by cases r <;> rfl, tick_main_read_ok hp ha⟩

theorem SessionRegs.last_eq {r r' : SessionRegs} (h : r'.engine = r.engine) : r'.last = r.last := by
  cases r <;> cases r' <;> first | rfl | cases h

theorem SessionRegs.last_le (r : SessionRegs) : r.last ≤ 35 := by cases r <;> simp [SessionRegs.last, lastOut, lastIn]

/-- The last primitive of a main sequence de-asserts the latch-enable (R81, R101). -/
theorem SessionRegs.prim_last (r : SessionRegs) : r.prim r.last = .write r.engine.latch r.engine.latch.idle := by
  cases r <;> rfl

/-- The one before it returns the clock to idle (R81, R101). -/
theorem SessionRegs.prim_before_last (r : SessionRegs) : r.prim (r.last - 1) = .write r.engine.clk r.engine.clk.idle := by
  cases r with
  | shiftOut v => rfl
  | shiftIn acc => show seqIn 25 = _; rfl

theorem recoveryEntry_clk (e : Engine) (a : Answer) :
    recoveryEntry e 1 a = .write e.clk e.clk.idle (answerResult a) := by cases e <;> rfl

theorem recoveryEntry_latch (e : Engine) (a : Answer) :
    recoveryEntry e 2 a = .write e.latch e.latch.idle (answerResult a) := by cases e <;> rfl

theorem okEntry_engine (r : SessionRegs) (k : Nat) (lvl : Level) : (okEntry (r.prim k) lvl).engine = r.engine := by
  have h := prim_engine r k
  revert h
  cases r.prim k <;> exact id

/-- A main sequence that ends responds OK (R82, R102). -/
theorem respondOk_cases (σ : Session) (s : State) : ∃ b, respondOk σ s = respond .ok b s ∧ (b = 0x00 ∨ ∃ r, b = xform r) := by
  obtain ⟨r, k, rk, err⟩ := σ
  cases r with
  | shiftOut v => exact ⟨_, rfl, .inl rfl⟩
  | shiftIn acc => exact ⟨_, rfl, .inr ⟨acc, rfl⟩⟩

/-- A well-formed session run for long enough performs primitives of its own engine and responds. -/
theorem runSession_cases (n : Nat) (s : State) (σ : Session) (hs : s.session = some σ) (hw : σ.WF)
    (hm : σ.err = none → σ.regs.last - σ.k + 3 ≤ n) (hr : σ.err ≠ none → 3 - σ.rk ≤ n) :
    ∃ es rsp, runSession n s = s.afterCommand es rsp ∧ ∀ e ∈ es, e.engine = σ.regs.engine := by
  induction n generalizing s σ with
  | zero =>
    obtain ⟨-, -, -, h4, ⟨h, -⟩ | h⟩ := hw
    · have := hm h; omega
    · have := hr (by simp [h]); omega
  | succ n ih =>
    obtain ⟨r, k, rk, err⟩ := σ
    obtain ⟨w1, w2, w3, w4, w5⟩ := hw
    simp only at w1 w2 w3 w4 w5 hm hr
    rw [runSession_some hs, State.eq_setSession hs]
    have goes : ∀ (e : TraceEntry) (σ' : Session), e.engine = r.engine → σ'.regs.engine = r.engine → σ'.WF →
        (σ'.err = none → σ'.regs.last - σ'.k + 3 ≤ n) → (σ'.err ≠ none → 3 - σ'.rk ≤ n) →
        ∃ es rsp, runSession n ((s.perform e).setSession (some σ')) =
          (s.setSession (some ⟨r, k, rk, err⟩)).afterCommand es rsp ∧ ∀ e ∈ es, e.engine = r.engine := by
      intro e σ' he hen hw' hm' hr'
      obtain ⟨es, rsp, h, hes⟩ := ih ((s.perform e).setSession (some σ')) σ' rfl hw' hm' hr'
      refine ⟨e :: es, rsp, ?_, ?_⟩
      · rw [h]; simp [State.afterCommand]; omega
      · intro x hx
        rcases List.mem_cons.mp hx with rfl | hx
        · exact he
        · exact (hes x hx).trans hen
    have ends : ∀ (e : TraceEntry) (st : Status) (b : Byte), e.engine = r.engine →
        ∃ es rsp, runSession n (respond st b (s.perform e)) =
          (s.setSession (some ⟨r, k, rk, err⟩)).afterCommand es rsp ∧ ∀ e ∈ es, e.engine = r.engine := by
      intro e st b he
      refine ⟨[e], responseWord st b, ?_, by simpa using he⟩
      rw [runSession_none (respond_session _ _ _)]
      exact respond_performAll s st b [e]
    rcases w5 with ⟨rfl, rfl⟩ | rfl
    · have hm := hm rfl
      cases ha : s.answerAt 0 with
      | ok lvl =>
        obtain ⟨r', hr', ht⟩ := tick_main_ok ha r k 1
        have hl := SessionRegs.last_eq hr'
        rw [ht]
        by_cases hk : k < r.last
        · rw [advance_next (by rw [hl]; exact hk)]
          exact goes _ ⟨r', k + 1, 1, none⟩ (okEntry_engine _ _ _) hr'
            ⟨by simp, by simp [hl]; omega, by simp, by simp, .inl ⟨rfl, rfl⟩⟩ (by simp [hl]; omega) (by simp)
        · rw [advance_last (by omega)]
          obtain ⟨b, hb, -⟩ := respondOk_cases ⟨r', k, 1, none⟩
            ((s.perform (okEntry (r.prim k) lvl)).setSession (some ⟨r, k, 1, none⟩))
          rw [hb, respond_setSession]
          exact ends _ _ _ (okEntry_engine _ _ _)
      | fail =>
        rw [tick_main_fail rfl ha]
        exact goes _ ⟨r, k, 1, some k⟩ (prim_engine _ _) rfl ⟨w1, w2, by simp, by simp, .inr rfl⟩ (by simp) (by simp; omega)
    · have hr := hr (by simp)
      rw [tick_recovery rfl]
      obtain rfl | rfl : rk = 1 ∨ rk = 2 := by omega
      · rw [if_pos (by simp)]
        exact goes _ ⟨r, k, 1 + 1, some k⟩ (recoveryEntry_engine _ _ _) rfl ⟨w1, w2, by simp, by simp, .inr rfl⟩ (by simp)
          (by simp; omega)
      · rw [if_neg (by simp)]
        exact ends _ _ _ (recoveryEntry_engine _ _ _)

/-- A well-formed session run to its response (R65, R143). -/
theorem finishSession_cases {s : State} {σ : Session} (hs : s.session = some σ) (hw : σ.WF) :
    ∃ es rsp, finishSession s = s.afterCommand es rsp ∧ ∀ e ∈ es, e.engine = σ.regs.engine := by
  have hl := σ.regs.last_le
  refine runSession_cases maxPrimitives s σ hs hw (fun _ => ?_) (fun _ => ?_) <;> unfold maxPrimitives
  · have := hw.1; omega
  · have := hw.2.2.1; omega

/-- Each step of the sequencer performs one primitive, which the trace records (R11, R26). -/
theorem tick_trace_length {s : State} {σ : Session} (hs : s.session = some σ) :
    (tick s).trace.length = s.trace.length + 1 := by
  obtain ⟨r, k, rk, err⟩ := σ
  rw [State.eq_setSession hs]
  cases err with
  | none =>
    cases ha : s.answerAt 0 with
    | ok lvl =>
      obtain ⟨r', -, ht⟩ := tick_main_ok ha r k rk
      rw [ht, advance]
      split
      · simp
      · obtain ⟨b, hb, -⟩ := respondOk_cases ⟨r', k, rk, none⟩
          ((s.perform (okEntry (r.prim k) lvl)).setSession (some ⟨r, k, rk, none⟩))
        rw [hb]; simp
    | fail => rw [tick_main_fail rfl ha, raiseLineError]; simp
  | some e => rw [tick_recovery rfl]; split <;> simp

/-- Running a session is the sequencer iterated, as long as there is a session. -/
theorem runSession_iterate (n : Nat) (s : State) :
    ∃ m ≤ n, runSession n s = tick^[m] s ∧ ∀ j < m, (tick^[j] s).session ≠ none := by
  induction n generalizing s with
  | zero => exact ⟨0, Nat.le_refl 0, rfl, fun j hj => absurd hj (Nat.not_lt_zero j)⟩
  | succ n ih =>
    cases hs : s.session with
    | none => exact ⟨0, Nat.zero_le _, runSession_none hs _, fun j hj => absurd hj (Nat.not_lt_zero j)⟩
    | some σ =>
      obtain ⟨m, hm, h, hj⟩ := ih (tick s)
      refine ⟨m + 1, Nat.succ_le_succ hm, by rw [runSession_some hs, h]; rfl, fun j hj' => ?_⟩
      cases j with
      | zero => simp [hs]
      | succ j => exact hj j (Nat.lt_of_succ_lt_succ hj')

/-- The trace counts the steps of the sequencer while there is a session. -/
theorem iterate_tick_trace_length (m : Nat) (s : State) (h : ∀ j < m, (tick^[j] s).session ≠ none) :
    (tick^[m] s).trace.length = s.trace.length + m := by
  induction m with
  | zero => rfl
  | succ m ih =>
    obtain ⟨σ, hσ⟩ := Option.ne_none_iff_exists'.mp (h m (Nat.lt_succ_self m))
    rw [Function.iterate_succ_apply', tick_trace_length hσ, ih fun j hj => h j (Nat.lt_succ_of_lt hj), Nat.add_assoc]

/-- An instruction has a next state only where no session exists (R65). -/
theorem exec_next_idle {i : Instr} {s t : State} (h : exec i s = .next t) : s.session = none := by
  cases hs : s.session with
  | none => rfl
  | some σ =>
    cases i <;>
      simp only [exec, execShiftOut, execShiftIn, execReserved00, execReserved11, accept_busy hs, reduceCtorEq] at h

/-- The host's act changes nothing but what the host has still to do. -/
theorem hostIssue_frame (s : State) : (hostIssue s).2 = { s with host := (hostIssue s).2.host } := by
  unfold hostIssue; split <;> rfl

end Sys2Proof.Machine
end

