-- ==== Sys2Proof/Tests/Slice0.lean ====
section
/-! SUPPORT. Tests. Expected results are the spec's own vectors (95_test_vectors.md), named in each comment, or worked out by hand
from the rule named; then, for each obligation with hypotheses, a state and operands that meet them all. -/

namespace Sys2Proof.Tests

open Sys2Proof.Machine

/-- The levels a device presents at the eight reads, slots 0 to 7, as the answers of a SHIFT_IN's 26 primitives. -/
def readAnswers (bits : List Bool) : List Answer :=
  [.ok .low] ++ bits.flatMap (fun b => [.ok .low, .ok (Level.ofBit b), .ok .low]) ++ [.ok .low]

/-- The reset state, with these answers of the line backend. -/
def start (as : List Answer) : State := { State.reset with answers := as }

/-- `n` answers `ok`. -/
def oks (n : Nat) : List Answer := List.replicate n (.ok .low)

/-- The start state of the fault-free runs: every primitive of any command answers `ok`. -/
def faultFree : State := start (oks 40)

/-- The start state in which primitive `k` of a command is the one that fails. -/
def failing (k : Nat) : State := start (oks (k - 1) ++ [.fail] ++ oks 40)

/-- A field of the next state, if there is one. -/
def get {α : Type} (o : Host.Outcome State Fault Refusal) (f : State → α) : Option α :=
  match o with
  | .next t => some (f t)
  | .fault _ => none
  | .refused _ => none

/-! ### Ill-formed terms -/

/-- R71: 256 is no `imm8`. -/
theorem test_wf_refuses_wide_imm8 : (AsmLine.shiftOut 256).wf = false ∧ (AsmLine.shiftOut 255).wf = true := by decide

/-- R71, R61: 1024 is no `imm10`. -/
theorem test_wf_refuses_wide_imm10 : (AsmLine.word 1024).wf = false ∧ (AsmLine.word 1023).wf = true := by decide

/-- R61: 1024 is no command word. -/
theorem test_wf_refuses_wide_command : ¬ CommandNumberWF 1024 ∧ decodeTableWord 16 1024 = none ∧ CommandNumberWF 1023 := by
  decide

/-! ### Decoding: words written out bit by bit from R61 and R62 -/

/-- R71's table and V1: `SHIFT_OUT 0xB0` is `01 10110000`. -/
theorem test_decode_shiftOut : decode 0b0110110000#10 = .shiftOut 0xB0 ∧ decodeTableWord 10 0x1B0 = some (.shiftOut 0xB0) := by
  decide

/-- R71's table and V20: SHIFT_IN is `10 00000000`, and `10 11111111` too. -/
theorem test_decode_shiftIn : decode 0b1000000000#10 = .shiftIn 0x00 ∧ decode 0b1011111111#10 = .shiftIn 0xFF := by decide

/-- V25, V26: `OP = 0b00`. -/
theorem test_decode_reserved00 : decode 0b0000000000#10 = .reserved00 0x00 ∧ decode 0b0011111111#10 = .reserved00 0xFF := by
  decide

/-- V27, V28: `OP = 0b11`. -/
theorem test_decode_reserved11 : decode 0b1100000000#10 = .reserved11 0x00 ∧ decode 0b1111111111#10 = .reserved11 0xFF := by
  decide

/-! ### The transform and the accumulator -/

/-- W1, W2, W3, and C1's corrected value for `0xAA`. -/
theorem test_xform : xform 0x00 = 0xFF ∧ xform 0x0F = 0x87 ∧ xform 0xFF = 0x07 ∧ xform 0xAA = 0xAF ∧ xform 0x08 = 0xBF := by
  decide

/-- T2: reads `1,0,1,...` put `0x80`, then `0xA0` in the accumulator. -/
theorem test_placeBit : placeBit 0x00 .high 0 = 0x80 ∧ placeBit 0x80 .low 1 = 0x80 ∧ placeBit 0x80 .high 2 = 0xA0 := by decide

/-! ### The commands -/

/-- T1 and V1: the trace of `SHIFT_OUT 0xB0` begins and ends as written, and reads back `0,0,0,0,1,1,0,1`. -/
theorem test_shiftOut_trace :
    get (exec (.shiftOut 0xB0) faultFree) (fun t => (t.trace.length, t.trace.take 5, t.trace.drop 33, decodeOut t.trace)) =
      some (35,
        [.write .soLatch .low .ok, .write .soClk .low .ok, .write .soData .low .ok, .write .soClk .high .ok,
          .write .soData .low .ok],
        [.write .soClk .low .ok, .write .soLatch .high .ok],
        [some .low, some .low, some .low, some .low, some .high, some .high, some .low, some .high]) := by
  decide +kernel

/-- V36: `SHIFT_OUT 0x01`, primitive 4 and both recovery writes fail: `SO_DATA` keeps `V[0]`, the other two lines hold `X`. -/
theorem test_shiftOut_fails_throughout :
    get (exec (.shiftOut 0x01) (start (oks 3 ++ [.fail, .fail, .fail]))) (fun t => (t.trace.length, t.responses, t.drv)) =
      some (6, [0x100#10], ⟨.high, .x, .x, .x, .x⟩) := by
  decide +kernel

/-- V12: reads `1,0,1,0,1,0,1,0` respond `0x0AF` after 26 entries, and leave `SI_CLK` and `SI_LATCH` low. -/
theorem test_shiftIn_AA :
    get (exec (.shiftIn 0x00) (start (readAnswers [true, false, true, false, true, false, true, false])))
        (fun t => (t.trace.length, t.responses, t.drv)) =
      some (26, [0x0AF#10], ⟨.x, .x, .x, .low, .low⟩) := by
  decide +kernel

/-- V41: the read of slot 3 (primitive 12) and the second recovery write fail: 14 entries, `0x100`, `SI_LATCH` holds `X`. -/
theorem test_shiftIn_read_fails :
    get (exec (.shiftIn 0x00) (start (oks 11 ++ [.fail, .ok .low, .fail])))
        (fun t => (t.trace.length, t.responses, t.drv.siClk, t.drv.siLatch)) =
      some (14, [0x100#10], .low, .x) := by
  decide +kernel

/-- V25, V26: a reserved word responds `0x200` and performs nothing. -/
theorem test_reserved00 :
    get (exec (.reserved00 0xFF) faultFree) (fun t => (t.trace, t.responses, t.drv)) =
      some ([], [0x200#10], ⟨.x, .x, .x, .x, .x⟩) := by
  decide

/-- V27, V28. -/
theorem test_reserved11 :
    get (exec (.reserved11 0x00) faultFree) (fun t => (t.trace, t.responses, t.drv)) =
      some ([], [0x200#10], ⟨.x, .x, .x, .x, .x⟩) := by
  decide

/-! ### The step and the host -/

/-- R65: the word placed next is what the step runs, also where the backend's answers are all free. -/
theorem test_step_runs_placed_word :
    get (step (State.reset.withFetchWord 16 0x1B0)) (fun _ => ()) = some () ∧
    get (step (State.reset.withFetchWord 16 0x200)) (fun _ => ()) = some () ∧
    get (step (State.reset.withFetchWord 16 0x0FF)) (fun t => t.responses) = some [0x200#10] := by
  decide

/-- P3: MIRROR with a failed first read: one response, `0x100`, five entries; its second step issues nothing. -/
theorem test_mirror_skips :
    get (step { start (oks 2 ++ [.fail] ++ oks 2) with host := [.mirror] }) (fun t => (t.trace.length, t.responses, t.host)) =
      some (5, [0x100#10], [.mirrorWrite]) ∧
    get (step { start [] with host := [.mirrorWrite], responses := [0x100#10] }) (fun t => (t.trace, t.responses, t.host)) =
      some ([], [0x100#10], []) := by
  decide +kernel

/-- P1: MIRROR's second step after the response `0x0AF` is `SHIFT_OUT 0xAF`, step-2b levels `1,1,1,1,0,1,0,1`. -/
theorem test_mirror_writes :
    get (step { faultFree with host := [.mirrorWrite], responses := [0x0AF#10] })
        (fun t => (t.responses, lsbFirstValue (decodeOut t.trace))) =
      some ([0x0AF#10, 0x000#10], some 0xAF) := by
  decide +kernel

/-- R53, V9: the host layer masks `0x1FF` to `0xFF`, word `0x1FF`. -/
theorem test_host_masks : hostShiftOut 0x3FF = .issue 0x1FF ∧ hostShiftIn = .issue 0x200 := by decide

/-- R71: `SHIFT_OUT 0xB0 ; c`, tab and spaces, is word `0x1B0`; `.word 0b11` is word 3; an `imm8` of 256 is refused. -/
theorem test_assembler :
    assembleText
        [['S', 'H', 'I', 'F', 'T', '_', 'O', 'U', 'T', '\t', '0', 'x', 'B', '0', ' ', ';', 'c'], [],
          ['.', 'w', 'o', 'r', 'd', ' ', '0', 'b', '1', '1'], ['M', 'I', 'R', 'R', 'O', 'R']] =
      .ok [.issue 0x1B0, .issue 0x003, .mirror] ∧
    assembleText [['S', 'H', 'I', 'F', 'T', '_', 'O', 'U', 'T', ' ', '2', '5', '6']] = .error (.operandTooWide 256) ∧
    assembleText [['N', 'O', 'P']] = .error .notALine := by
  decide +kernel

/-! ### Witnesses: each meets all the hypotheses of the obligations named -/

/-- An open session within its ranges: SHIFT_OUT about to write its first data bit. -/
def openOut : Session := ⟨.shiftOut 0x01, 3, 1, none⟩

/-- The last primitive of SHIFT_IN. -/
def lastIn : Session := ⟨.shiftIn 0xAA, 26, 1, none⟩

/-- A session in its recovery. -/
def recovering : Session := ⟨.shiftIn 0xAA, 12, 1, some 12⟩

/-- ShiftOutRunsItsSequence, ShiftOutHasEightPulses, LoopbackReconstructsTheValue, ShiftOutTraceDependsOnValueOnly (both states),
ShiftInRunsItsSequence, TransformFormula, ShiftInPulseCount, FirstThreeReadsAreDiscarded. -/
theorem witness_fault_free : faultFree.session = none ∧ faultFree.OksFor 35 ∧ faultFree.OksFor 26 := by decide +kernel

/-- ShiftOutHasEightPulses: the command has a next state. -/
theorem witness_fault_free_next : ∃ t, exec (.shiftOut 0xB0) faultFree = .next t := ⟨_, rfl⟩

/-- FirstThreeReadsAreDiscarded: V11 and V18, two states that differ in the first three reads only. -/
theorem witness_first_three_reads :
    (start (readAnswers [true, true, true, false, false, false, false, false])).OksFor 26 ∧
    (start (readAnswers [false, false, false, false, false, false, false, false])).OksFor 26 ∧
    ∀ i, 3 ≤ i → i < 8 →
      (start (readAnswers [true, true, true, false, false, false, false, false])).levelAt (2 + 3 * i) =
        (start (readAnswers [false, false, false, false, false, false, false, false])).levelAt (2 + 3 * i) := by
  refine ⟨by decide +kernel, by decide +kernel, fun i h3 h8 => ?_⟩
  have : ∀ i < 8, 3 ≤ i → (start (readAnswers [true, true, true, false, false, false, false, false])).levelAt (2 + 3 * i) =
      (start (readAnswers [false, false, false, false, false, false, false, false])).levelAt (2 + 3 * i) := by decide +kernel
  exact this i h8 h3

/-- ShiftOutRunsItsSequence (its second clause) and ShiftOutFailureRestoresIdle, at the first and at the last primitive. -/
theorem witness_out_fails :
    (failing 1).session = none ∧ (failing 1).FailsAfter (1 - 1) ∧ (failing 35).session = none ∧ (failing 35).FailsAfter (35 - 1) := by
  decide +kernel

/-- ShiftInRunsItsSequence (its second clause), ShiftInFailureRestoresIdle and MirrorIsReadThenWrite and PollLoopRepeats (their
clauses on a failure, with the host's act added), at the first
and at the last primitive. -/
theorem witness_in_fails :
    (failing 1).FailsAfter (1 - 1) ∧ (failing 26).FailsAfter (26 - 1) ∧
    ({ failing 26 with host := [.mirror] } : State).session = none ∧
    ({ failing 26 with host := [.mirror] } : State).FailsAfter 25 ∧
    ({ failing 26 with host := [.pollLoop] } : State).FailsAfter 25 := by
  decide +kernel

/-- ShiftInPulseCount: both values of its last clause. -/
theorem witness_pulse_clauses :
    faultFree.drv.siClk ≠ .low ∧ ({ faultFree with drv := ⟨.low, .low, .high, .low, .low⟩ } : State).drv.siClk = .low := by decide

/-- FirstBitReadLandsInBitSeven, at both ends of its range. -/
theorem witness_bit_range : 0 < 8 ∧ 7 < 8 := by decide

/-- OperandAssembly: two words of one `OP`, of a SHIFT_OUT and of each other command. -/
theorem witness_operand_words :
    opField 0x1B0#10 = 0b01#2 ∧ opField 0x200#10 = opField 0x2FF#10 ∧ opField 0x200#10 ≠ 0b01#2 ∧
    opField 0x000#10 = opField 0x0FF#10 ∧ opField 0x000#10 ≠ 0b01#2 ∧ opField 0x300#10 = opField 0x3FF#10 ∧
    opField 0x300#10 ≠ 0b01#2 := by
  decide

/-- AcceptanceCreatesTheSession, NoCommandReadsDrv, EveryCommandResponds: no session. SequencesAreTheTables, at both ends of its
ranges. -/
theorem witness_no_session : State.reset.session = none ∧ 0 < 8 ∧ 7 < 8 ∧ 0 < 4 ∧ 3 < 4 ∧ 2 < 3 := by decide

/-- TransformKeepsFiveInvertedBits: a byte whose low bits are `0b111`. -/
theorem witness_low_bits : (0x57#8).extractLsb' 0 3 = 0b111#3 := by decide

/-- OnlyTenBitWordsAreCommands, AssemblerEncodesOrRefuses: both sides of each bound. -/
theorem witness_word_bounds : 1023 < 1024 ∧ 1024 ≤ 1024 ∧ 255 < 256 ∧ 256 ≤ 256 := by decide

/-- LineWriteRecordsItsOutcome: an answer of each kind, and another line; AnyAnswersCanCome: a listed answer. -/
theorem witness_answers :
    faultFree.answerAt 0 = .ok .low ∧ (failing 1).answerAt 0 = .fail ∧ OutLine.soClk ≠ OutLine.soData ∧ 1 < (oks 2).length ∧
    [TraceEntry.read .fail].length = 1 := by
  decide

/-- ShiftOutFrame, ShiftInFrame, ReservedFrame, ResponsesAreWellFormed, EveryCommandResponds, NoCommandReadsDrv: no session, and a
next state of each command. -/
theorem witness_next_states :
    (∃ t, exec (.shiftOut 0xFF) State.reset = .next t) ∧ (∃ t, exec (.shiftIn 0xFF) State.reset = .next t) ∧
    (∃ t, exec (.reserved00 0x00) State.reset = .next t) ∧ (∃ t, exec (.reserved11 0x00) State.reset = .next t) :=
  ⟨⟨_, rfl⟩, ⟨_, rfl⟩, ⟨_, rfl⟩, ⟨_, rfl⟩⟩

/-- FaultFreeCommandLeavesLinesIdle: idle lines. -/
theorem witness_idle_lines :
    ({ faultFree with drv := ⟨.low, .low, .high, .low, .low⟩ } : State).drv.Idle ∧
    ({ faultFree with drv := ⟨.low, .low, .high, .low, .low⟩ } : State).OksFor 35 := by
  decide +kernel

/-- NoCommandReadsDrv: two states that differ in `drv`. -/
theorem witness_differ_in_drv :
    (State.resetWith fun _ => .low).session = none ∧ (State.resetWith fun _ => .low).answers = State.reset.answers ∧
    (State.resetWith fun _ => .low).draws = State.reset.draws ∧ (State.resetWith fun _ => .low).drv ≠ State.reset.drv := by
  decide

/-- NoCommandWhileASessionExists, StepFinishesAnOpenSession, ProgramCounterAdvancesByOne (both clauses): open sessions. -/
theorem witness_open_sessions :
    openOut.WF ∧ openOut.err = none ∧ openOut.k < openOut.regs.last ∧ lastIn.WF ∧ lastIn.err = none ∧
    lastIn.k = lastIn.regs.last ∧ (faultFree.setSession (some openOut)).session = some openOut ∧
    (faultFree.setSession (some lastIn)).answerAt 0 = .ok .low := by
  decide

/-- A session about to read its first bit. -/
def openIn : Session := ⟨.shiftIn 0x00, 3, 1, none⟩

/-- LineErrorIsPrecise, at the read: a whole state whose session's next primitive is the read, and fails. -/
theorem witness_line_error_read :
    ((failing 1).setSession (some openIn)).session = some openIn ∧ openIn.err = none ∧ openIn.WF ∧
    ((failing 1).setSession (some openIn)).answerAt 0 = .fail ∧ openIn.regs.prim openIn.k = .read := by
  decide

/-- R133, R134, by hand from V39's shape: that read fails and all else answers `ok`; three sequencer steps later the trace is the
read, the clock low, the latch-enable low, and the response is `0x100`. -/
theorem test_line_error_at_read :
    (tick (tick (tick ((failing 1).setSession (some openIn))))).trace =
      [.read .fail, .write .siClk .low .ok, .write .siLatch .low .ok] ∧
    (tick (tick (tick ((failing 1).setSession (some openIn))))).responses = [0x100#10] ∧
    (tick ((failing 1).setSession (some openIn))).drv = (failing 1).drv := by
  decide

/-- LineErrorIsPrecise, at the write. -/
theorem witness_line_error :
    ((failing 1).setSession (some openOut)).answerAt 0 = .fail ∧ openOut.err = none ∧
    ((failing 1).setSession (some openOut)).session = some openOut ∧
    openOut.regs.prim openOut.k = .write .soData .high := by
  decide

/-- RecoveryIsTwoWrites. -/
theorem witness_recovering :
    (faultFree.setSession (some recovering)).session = some recovering ∧ recovering.err = some 12 ∧ recovering.rk = 1 ∧
    recovering.WF := by
  decide

/-- TickKeepsTheInvariant, StepKeepsTheInvariant, with a session open: SHIFT_OUT accepted right after reset. -/
theorem witness_invariant : (openSession (.shiftOut 0x01) faultFree).Inv where
  session := fun σ h => by cases h; decide
  responses := fun r h => by cases h
  lines := fun e => by
    cases e
    · exact ⟨fun h => absurd rfl h, fun _ _ => .inr rfl⟩
    · exact ⟨fun _ => ⟨.inr rfl, .inr rfl⟩, fun h => absurd h (by decide)⟩
  draws := rfl
  drv := rfl

/-- StepKeepsTheInvariant: that state has a next state. -/
theorem witness_invariant_step : ∃ t, step (openSession (.shiftOut 0x01) faultFree) = .next t := ⟨_, rfl⟩

/-- StepRunsTheIssuedCommand, StepWithNothingToIssue, MirrorIsReadThenWrite, PollLoopRepeats: what the host has to do. -/
theorem witness_host :
    ({ faultFree with host := [.issue 0x1B0] } : State).host = .issue 0x1B0 :: [] ∧ faultFree.host = [] ∧
    decodeTableWord 16 0x1B0 = some (.shiftOut 0xB0) ∧
    ({ faultFree with host := [.mirror] } : State).host = .mirror :: [] ∧
    ({ faultFree with host := [.mirror] } : State).OksFor 26 ∧
    ({ faultFree with host := [.pollLoop] } : State).host = .pollLoop :: [] ∧
    ({ faultFree with host := [.pollLoop] } : State).OksFor 26 := by
  decide +kernel

end Sys2Proof.Tests
end

/-!
The family "State": what one primitive of a session within its ranges does to the lines, that every primitive and every step keep
the invariant `State.Inv` (R22, R23, R25, R66), that a fault-free command leaves the lines idle (R23), and that the sequences use
the constants of CFG (R30).
-/
namespace Sys2Proof.Machine

/-! ### Lines at rest -/

/-- A write of a line's idle level leaves the line at rest, whether it returns `ok` or `fail` (R44, R136). -/
theorem Drv.restsAt_record_idle (d : Drv) (L : OutLine) (r : WriteResult) : (d.record (.write L L.idle r)).RestsAt L := by
  cases r with
  | ok => exact .inl (d.get_set_self L _)
  | fail => exact .inr (d.get_set_self L _)

theorem Drv.record_write_get_ne (d : Drv) {L L' : OutLine} (lvl : Level) (r : WriteResult) (h : L' ≠ L) :
    (d.record (.write L lvl r)).get L' = d.get L' := by
  cases r with
  | ok => exact d.get_set_ne _ h
  | fail => exact d.get_set_ne _ h

/-- An entry of one engine leaves the lines of the other as they were. -/
theorem Drv.record_get_of_engine_ne (d : Drv) {x : TraceEntry} {L : OutLine} (h : L.engine ≠ x.engine) :
    (d.record x).get L = d.get L :=
  Drv.replay_other (es := [x]) (fun _ hy => by rw [List.mem_singleton.mp hy]) h

@[simp] theorem Engine.clk_engine (e : Engine) : e.clk.engine = e := by cases e <;> rfl

@[simp] theorem Engine.latch_engine (e : Engine) : e.latch.engine = e := by cases e <;> rfl

theorem Engine.clk_ne_latch (e : Engine) : e.clk ≠ e.latch := by cases e <;> decide

/-- R23's idle lines, engine by engine. -/
theorem Drv.idle_iff (d : Drv) :
    d.Idle ↔ ∀ e : Engine, d.get e.clk = .ofLevel e.clk.idle ∧ d.get e.latch = .ofLevel e.latch.idle := by
  constructor
  · rintro ⟨hsoClk, hsoLatch, hsiClk, hsiLatch⟩ (_ | _)
    · exact ⟨hsoClk, hsoLatch⟩
    · exact ⟨hsiClk, hsiLatch⟩
  · intro h
    exact ⟨(h .serializer).1, (h .serializer).2, (h .deserializer).1, (h .deserializer).2⟩

theorem State.linesRest_of_session_none {s : State} (h : s.session = none) :
    s.LinesRest ↔ ∀ e : Engine, s.drv.RestsAt e.clk ∧ s.drv.RestsAt e.latch := by
  simp only [State.LinesRest, h]

theorem State.linesRest_of_session_some {s : State} {σ : Session} (h : s.session = some σ) :
    s.LinesRest ↔ ∀ e : Engine, (e ≠ σ.regs.engine → s.drv.RestsAt e.clk ∧ s.drv.RestsAt e.latch) ∧
      (e = σ.regs.engine → σ.ClockDone → s.drv.RestsAt e.clk) := by
  simp only [State.LinesRest, h]

/-- The engine that no session runs on stays at rest while the other performs a primitive. -/
theorem State.LinesRest.other_engine {s : State} {σ : Session} (hl : s.LinesRest) (hs : s.session = some σ) {x : TraceEntry}
    (hx : x.engine = σ.regs.engine) {e : Engine} (he : e ≠ σ.regs.engine) :
    (s.drv.record x).RestsAt e.clk ∧ (s.drv.record x).RestsAt e.latch := by
  have hclk : e.clk.engine ≠ x.engine := by rwa [hx, Engine.clk_engine]
  have hlatch : e.latch.engine ≠ x.engine := by rwa [hx, Engine.latch_engine]
  simpa only [Drv.RestsAt, Drv.record_get_of_engine_ne _ hclk, Drv.record_get_of_engine_ne _ hlatch] using
    ((State.linesRest_of_session_some hs).mp hl e).1 he

/-- A session that goes on keeps the lines: its own clock matters only once it has been returned to idle. -/
theorem State.LinesRest.perform {s : State} {σ σ' : Session} (hl : s.LinesRest) (hs : s.session = some σ) {x : TraceEntry}
    (hx : x.engine = σ.regs.engine) (hσ' : σ'.regs.engine = σ.regs.engine)
    (hclk : σ'.ClockDone → ∃ r, x = .write σ.regs.engine.clk σ.regs.engine.clk.idle r) :
    ((s.perform x).setSession (some σ')).LinesRest := by
  rw [State.linesRest_of_session_some (State.setSession_session _ _), hσ']
  intro e
  refine ⟨hl.other_engine hs hx, ?_⟩
  rintro rfl hdone
  obtain ⟨r, rfl⟩ := hclk hdone
  exact s.drv.restsAt_record_idle _ r

/-- A session that ends with the write of its latch-enable, its clock returned before, leaves both engines at rest. -/
theorem State.LinesRest.respond {s : State} {σ : Session} (hl : s.LinesRest) (hs : s.session = some σ) (hdone : σ.ClockDone)
    (r : WriteResult) (st : Status) (b : Byte) :
    (respond st b (s.perform (.write σ.regs.engine.latch σ.regs.engine.latch.idle r))).LinesRest := by
  rw [State.linesRest_of_session_none (respond_session _ _ _)]
  intro e
  by_cases he : e = σ.regs.engine
  · subst he
    have hclk := ((State.linesRest_of_session_some hs).mp hl _).2 rfl hdone
    refine ⟨?_, s.drv.restsAt_record_idle _ r⟩
    simpa only [Drv.RestsAt, respond_drv, State.perform_drv, Drv.record_write_get_ne _ _ _ (Engine.clk_ne_latch _)] using hclk
  · exact hl.other_engine (x := .write _ _ r) hs (Engine.latch_engine _) he

/-! ### One primitive of a session within its ranges -/

theorem legalResponse_lineError : LegalResponse (responseWord .lineError 0x00) := .inl rfl

theorem legalResponse_illegalCommand : LegalResponse (responseWord .illegalCommand 0x00) := .inr (.inl rfl)

/-- The response of a main sequence that ends (R67, R105). -/
theorem legalResponse_ok {b : Byte} (h : b = 0x00 ∨ ∃ r, b = xform r) : LegalResponse (responseWord .ok b) := by
  refine .inr (.inr ?_)
  rcases h with rfl | ⟨r, rfl⟩
  · exact ⟨rfl, .inl rfl⟩
  · revert r; decide

/-- The session performs a primitive of its engine and goes on within its ranges; if its clock is then done, that primitive
returned the clock to idle (R26, R133, R134). -/
def Session.GoesOn (σ : Session) (s : State) : Prop :=
  ∃ x σ', tick s = (s.perform x).setSession (some σ') ∧ x.engine = σ.regs.engine ∧ σ'.regs.engine = σ.regs.engine ∧ σ'.WF ∧
    (σ'.ClockDone → ∃ r, x = .write σ.regs.engine.clk σ.regs.engine.clk.idle r)

/-- The session, its clock done, writes its latch-enable to idle and responds (R81, R101, R134, R137). -/
def Session.Ends (σ : Session) (s : State) : Prop :=
  σ.ClockDone ∧ ∃ r st b, LegalResponse (responseWord st b) ∧
    tick s = respond st b (s.perform (.write σ.regs.engine.latch σ.regs.engine.latch.idle r))

/-- A primitive of the main sequence that answers `ok`, before the last (R26). -/
theorem goesOn_of_ok {s : State} {r : SessionRegs} {k : Nat} {lvl : Level} (hs : s.session = some ⟨r, k, 1, none⟩)
    (h1 : 1 ≤ k) (hk : k < r.last) (ha : s.answerAt 0 = .ok lvl) : Session.GoesOn ⟨r, k, 1, none⟩ s := by
  obtain ⟨r', hr', ht⟩ := tick_main_ok ha r k 1
  have hl := SessionRegs.last_eq hr'
  rw [← State.eq_setSession hs, advance_next (by omega), State.setSession_setSession] at ht
  refine ⟨_, _, ht, okEntry_engine r k lvl, hr', ⟨by simp, by simp only [hl]; omega, by simp, by simp, .inl ⟨rfl, rfl⟩⟩, ?_⟩
  rintro (⟨-, hdone⟩ | ⟨hne, -⟩)
  · obtain rfl : k = r.last - 1 := by simp only [hl] at hdone; omega
    rw [SessionRegs.prim_before_last]
    exact ⟨.ok, rfl⟩
  · exact absurd rfl hne

/-- The last primitive of the main sequence, answered `ok` (R82, R102). -/
theorem ends_of_ok {s : State} {r : SessionRegs} {lvl : Level} (hs : s.session = some ⟨r, r.last, 1, none⟩)
    (ha : s.answerAt 0 = .ok lvl) : Session.Ends ⟨r, r.last, 1, none⟩ s := by
  obtain ⟨r', hr', ht⟩ := tick_main_ok ha r r.last 1
  rw [← State.eq_setSession hs, advance_last (SessionRegs.last_eq hr').le, SessionRegs.prim_last] at ht
  obtain ⟨b, hb, hlegal⟩ := respondOk_cases ⟨r', r.last, 1, none⟩
    ((s.perform (okEntry (.write r.engine.latch r.engine.latch.idle) lvl)).setSession (some ⟨r, r.last, 1, none⟩))
  rw [hb, respond_setSession] at ht
  exact ⟨.inl ⟨rfl, rfl⟩, .ok, .ok, b, legalResponse_ok hlegal, ht⟩

/-- A primitive of the main sequence that answers `fail`: the recovery is next (R133). -/
theorem goesOn_of_fail {s : State} {σ : Session} (hs : s.session = some σ) (hw : σ.WF) (he : σ.err = none)
    (ha : s.answerAt 0 = .fail) : σ.GoesOn s := by
  obtain ⟨h1, hk, -⟩ := hw
  have ht := tick_main_fail he ha
  rw [← State.eq_setSession hs, raiseLineError] at ht
  refine ⟨_, _, ht, prim_engine σ.regs σ.k, rfl, ⟨h1, hk, by simp, by simp, .inr rfl⟩, ?_⟩
  rintro (⟨hnone, -⟩ | ⟨-, hrk⟩)
  · cases hnone
  · cases hrk

/-- The first recovery write returns the clock to idle (R134). -/
theorem goesOn_of_recovery {s : State} {r : SessionRegs} {k : Nat} (hs : s.session = some ⟨r, k, 1, some k⟩)
    (h1 : 1 ≤ k) (hk : k ≤ r.last) : Session.GoesOn ⟨r, k, 1, some k⟩ s := by
  have ht := tick_recovery (s := s) (σ := ⟨r, k, 1, some k⟩) rfl
  rw [← State.eq_setSession hs, if_pos (Nat.lt_succ_self 1)] at ht
  exact ⟨_, _, ht, recoveryEntry_engine _ _ _, rfl, ⟨h1, hk, by simp, by simp, .inr rfl⟩, fun _ => ⟨_, recoveryEntry_clk _ _⟩⟩

/-- The second recovery write de-asserts the latch-enable, and the response is LINE_ERROR (R134, R137). -/
theorem ends_of_recovery {s : State} {r : SessionRegs} {k : Nat} (hs : s.session = some ⟨r, k, 2, some k⟩) :
    Session.Ends ⟨r, k, 2, some k⟩ s := by
  have ht := tick_recovery (s := s) (σ := ⟨r, k, 2, some k⟩) rfl
  rw [← State.eq_setSession hs, if_neg (Nat.lt_irrefl 2), recoveryEntry_latch] at ht
  exact ⟨.inr ⟨by simp, rfl⟩, _, _, _, legalResponse_lineError, ht⟩

/-- All that one primitive of a session within its ranges can do. -/
theorem goesOn_or_ends {s : State} {σ : Session} (hs : s.session = some σ) (hw : σ.WF) : σ.GoesOn s ∨ σ.Ends s := by
  obtain ⟨r, k, rk, err⟩ := σ
  obtain ⟨h1, hk, hrk1, hrk2, herr⟩ := id hw
  simp only at h1 hk hrk1 hrk2 herr
  rcases herr with ⟨rfl, rfl⟩ | rfl
  · cases ha : s.answerAt 0 with
    | fail => exact .inl (goesOn_of_fail hs hw rfl ha)
    | ok lvl =>
      obtain hlt | rfl := Nat.lt_or_eq_of_le hk
      · exact .inl (goesOn_of_ok hs h1 hlt ha)
      · exact .inr (ends_of_ok hs ha)
  · obtain rfl | rfl : rk = 1 ∨ rk = 2 := by omega
    · exact .inl (goesOn_of_recovery hs h1 hk)
    · exact .inr (ends_of_recovery hs)

/-! ### The invariant -/

/-- The trace accounts for a further primitive (R11, R22, R44). -/
theorem State.Inv.draws_perform {s : State} (h : s.Inv) (x : TraceEntry) : (s.perform x).draws = (s.perform x).trace.length := by
  simp [h.draws]

theorem State.Inv.drv_perform {s : State} (h : s.Inv) (x : TraceEntry) :
    (s.perform x).drv = State.reset.drv.replay (s.perform x).trace := by
  rw [State.perform_drv, State.perform_trace, Drv.replay_append, ← h.drv]
  rfl

theorem State.Inv.responses_respond {s : State} (h : s.Inv) {st : Status} {b : Byte} (hlegal : LegalResponse (responseWord st b)) :
    ∀ r ∈ s.responses ++ [responseWord st b], LegalResponse r := by
  intro r hr
  rcases List.mem_append.mp hr with hr | hr
  · exact h.responses r hr
  · rwa [List.mem_singleton.mp hr]

theorem State.Inv.tick_of_goesOn {s : State} {σ : Session} (h : s.Inv) (hs : s.session = some σ) (hσ : σ.GoesOn s) :
    (tick s).Inv := by
  obtain ⟨x, σ', ht, hx, hσ', hw', hclk⟩ := hσ
  rw [ht]
  exact {
    session := fun τ hτ => by cases hτ; exact hw'
    responses := h.responses
    lines := h.lines.perform hs hx hσ' hclk
    draws := h.draws_perform x
    drv := h.drv_perform x }

theorem State.Inv.tick_of_ends {s : State} {σ : Session} (h : s.Inv) (hs : s.session = some σ) (hσ : σ.Ends s) :
    (tick s).Inv := by
  obtain ⟨hdone, r, st, b, hlegal, ht⟩ := hσ
  rw [ht]
  exact {
    session := fun τ hτ => by cases hτ
    responses := h.responses_respond hlegal
    lines := h.lines.respond hs hdone r st b
    draws := h.draws_perform _
    drv := h.drv_perform _ }

/-- Every primitive of the sequencer keeps the invariant. -/
theorem State.Inv.tick {s : State} (h : s.Inv) : (tick s).Inv := by
  cases hs : s.session with
  | none => rwa [tick_none hs]
  | some σ =>
    rcases goesOn_or_ends hs (h.session σ hs) with hσ | hσ
    · exact h.tick_of_goesOn hs hσ
    · exact h.tick_of_ends hs hσ

theorem State.Inv.runSession {s : State} (h : s.Inv) (n : Nat) : (runSession n s).Inv := by
  induction n generalizing s with
  | zero => exact h
  | succ n ih =>
    cases hs : s.session with
    | none => rwa [runSession_none hs]
    | some σ => rw [runSession_some hs]; exact ih h.tick

theorem SessionRegs.one_lt_last (r : SessionRegs) : 1 < r.last := by
  cases r with
  | shiftOut v => exact (by decide : 1 < lastOut)
  | shiftIn acc => exact (by decide : 1 < lastIn)

/-- The acceptance of a command keeps the invariant: the new session is at its first primitive (R64). -/
theorem State.Inv.openSession {s : State} (h : s.Inv) (hs : s.session = none) (r : SessionRegs) : (openSession r s).Inv where
  session := fun σ hσ => by cases hσ; exact ⟨Nat.le_refl 1, r.one_lt_last.le, Nat.le_refl 1, Nat.le_succ 1, .inl ⟨rfl, rfl⟩⟩
  responses := h.responses
  lines := by
    have hrest := (State.linesRest_of_session_none hs).mp h.lines
    rw [State.linesRest_of_session_some (openSession_session r s)]
    exact fun e => ⟨fun _ => hrest e, fun _ _ => (hrest e).1⟩
  draws := h.draws
  drv := h.drv

/-- A reserved word keeps the invariant: it only responds (R68). -/
theorem State.Inv.illegalCommand {s : State} (h : s.Inv) (hs : s.session = none) : (illegalCommand s).Inv where
  session := fun σ hσ => by cases hσ
  responses := h.responses_respond legalResponse_illegalCommand
  lines := (State.linesRest_of_session_none rfl).mpr ((State.linesRest_of_session_none hs).mp h.lines)
  draws := h.draws
  drv := h.drv

/-- The invariant says nothing of what the host has still to do. -/
theorem State.Inv.setHost {s : State} (h : s.Inv) (host : List HostOp) : ({ s with host := host } : State).Inv :=
  ⟨h.session, h.responses, h.lines, h.draws, h.drv⟩

/-- Where no session exists, a command is a session run to its response, or the response to a reserved word (R64, R65, R68). -/
theorem exec_cases {s : State} (hs : s.session = none) (i : Instr) :
    (∃ r, exec i s = .next (runCommand r s)) ∨ exec i s = .next (illegalCommand s) := by
  cases i with
  | shiftOut v => exact .inl ⟨_, accept_idle hs _⟩
  | shiftIn d => exact .inl ⟨_, accept_idle hs _⟩
  | reserved00 d => exact .inr (accept_idle hs _)
  | reserved11 d => exact .inr (accept_idle hs _)

/-- Every command keeps the invariant. -/
theorem State.Inv.exec {s t : State} {i : Instr} (h : s.Inv) (ht : exec i s = .next t) : t.Inv := by
  have hs := exec_next_idle ht
  rcases exec_cases hs i with ⟨r, hi⟩ | hi <;> rw [hi] at ht <;> cases ht
  · exact (h.openSession hs r).runSession maxPrimitives
  · exact h.illegalCommand hs

/-- All that a step can do: the open session run to its response, the command that the host issues, or nothing but the host's
act (R55, R65). -/
theorem step_cases {s t : State} (h : step s = .next t) :
    t = finishSession s ∨ (∃ i, exec i (hostIssue s).2 = .next t) ∨ t = (hostIssue s).2 := by
  unfold step at h
  split at h
  · cases h; exact .inl rfl
  · split at h
    next i s' hi => rw [hi]; exact .inr (.inl ⟨i, h⟩)
    next s' hi => rw [hi]; cases h; exact .inr (.inr rfl)

/-- Every step keeps the invariant. -/
theorem State.Inv.step {s t : State} (h : s.Inv) (ht : step s = .next t) : t.Inv := by
  have hissue : (hostIssue s).2.Inv := by rw [hostIssue_frame]; exact h.setHost _
  rcases step_cases ht with rfl | ⟨i, hi⟩ | rfl
  · exact h.runSession maxPrimitives
  · exact hissue.exec hi
  · exact hissue

/-! ### Idle lines -/

/-- Primitives of one engine that end with the return of its clock and its latch-enable keep the lines idle (R23). -/
theorem Drv.Idle.replay {d : Drv} (h : d.Idle) {e : Engine} {xs : List TraceEntry} (hxs : ∀ x ∈ xs, x.engine = e) :
    (d.replay (xs ++ [.write e.clk e.clk.idle .ok, .write e.latch e.latch.idle .ok])).Idle := by
  rw [Drv.idle_iff] at h ⊢
  intro e'
  by_cases he : e' = e
  · subst he
    rw [Drv.replay_append]
    exact ⟨Drv.record_write_get_ne _ _ .ok (Engine.clk_ne_latch e') |>.trans (Drv.get_set_self _ _ _), Drv.get_set_self _ _ _⟩
  · have hall : ∀ x ∈ xs ++ [.write e.clk e.clk.idle .ok, .write e.latch e.latch.idle .ok], x.engine = e := by
      simpa [or_imp, forall_and, TraceEntry.engine] using hxs
    rw [Drv.replay_other hall (by rwa [Engine.clk_engine]), Drv.replay_other hall (by rwa [Engine.latch_engine])]
    exact h e'

/-- SHIFT_OUT's last two primitives return the clock, then the latch-enable (R81). -/
theorem okEntriesOut_last_two (v : Byte) : okEntriesOut v 35 = okEntriesOut v 33 ++
    [.write Engine.serializer.clk Engine.serializer.clk.idle .ok, .write Engine.serializer.latch Engine.serializer.latch.idle .ok] := by
  rw [okEntriesOut, okEntriesOut, List.append_assoc]; rfl

/-- SHIFT_IN's last two primitives return the clock, then the latch-enable (R101). -/
theorem okEntriesIn_last_two (lvls : Nat → Level) : okEntriesIn lvls 26 = okEntriesIn lvls 24 ++
    [.write Engine.deserializer.clk Engine.deserializer.clk.idle .ok,
     .write Engine.deserializer.latch Engine.deserializer.latch.idle .ok] := by
  rw [okEntriesIn, okEntriesIn, List.append_assoc]; rfl

/-- A fault-free command with a session leaves idle lines idle (R82, R102). -/
theorem runCommand_idle {s : State} (hok : s.OksFor 35) (hd : s.drv.Idle) (r : SessionRegs) : (runCommand r s).drv.Idle := by
  cases r with
  | shiftOut v =>
    rw [runCommand_out_ok v hok, respond_drv, State.performAll_drv, okEntriesOut_last_two]
    exact hd.replay (okEntriesOut_engine v 33)
  | shiftIn acc =>
    rw [runCommand_in_ok acc (hok.mono (by decide)), respond_drv, State.performAll_drv, okEntriesIn_last_two]
    exact hd.replay (okEntriesIn_engine s.levelAt 24)

/-! ### The constants of CFG -/

/-- R104's formula, written with CFG's align shift and invert mask (R30): the truncation to 8 bits drops what eleven bits kept. -/
theorem xform_eq_cfg (r : Byte) : xform r = (r <<< Config.cfg.siAlign) ^^^ Config.cfg.siInvert := by
  rw [xform, BitVec.setWidth_and, BitVec.setWidth_shiftLeft_of_le (by decide), BitVec.setWidth_setWidth_of_le r (by decide),
    BitVec.setWidth_eq]
  exact congrArg (· ^^^ 0xFF#8) BitVec.and_allOnes

/-! ### The statements -/

/-- Settles O48: a step is the session run to its response, or a command, or nothing but the host's act; each is made of what
keeps the invariant. -/
theorem stepKeepsTheInvariant : Obligations.StepKeepsTheInvariant := fun _ _ h ht => h.step ht

/-- Settles O31: the last two primitives of each main sequence return the clock and the latch-enable. -/
theorem faultFreeCommandLeavesLinesIdle : Obligations.FaultFreeCommandLeavesLinesIdle := by
  intro i s hs hok hd
  rcases exec_cases hs i with ⟨r, hi⟩ | hi
  · exact ⟨_, hi, runCommand_idle hok hd r⟩
  · exact ⟨_, hi, hd⟩

/-- Settles O35, by what one primitive of a session within its ranges can do. -/
theorem tickKeepsTheInvariant : Obligations.TickKeepsTheInvariant := fun _ h => h.tick

/-- Settles O46: place by place. -/
theorem configurationIsTheBoards : Obligations.ConfigurationIsTheBoards := by
  refine ⟨fun v => ⟨rfl, rfl, rfl⟩, rfl, rfl, rfl, fun e => ?_, xform_eq_cfg⟩
  cases e <;> rfl

end Sys2Proof.Machine

/-!
The family "Memory": what the two line primitives record (R44, R45), that the listed answers are the ones given (R46), where the
accumulator holds each bit read (R49), and the word that a host software layer hands over (R53).
-/
namespace Sys2Proof.Machine

/-! ### Listed answers -/

/-- While answers are listed, the free ones are not reached (log 2). -/
theorem State.answerAt_of_lt {s : State} {j : Nat} (h : j < s.answers.length) : s.answerAt j = s.answers[j] := by
  rw [State.answerAt, List.getElem?_eq_getElem h]

/-! ### Bits of the accumulator -/

/-- The byte of one level, shifted to position `j`, has no other bit than `j`. -/
theorem bit_shiftLeft_getLsbD (lvl : Level) {j n : Nat} (hn : n < 8) :
    (BitVec.ofNat 8 lvl.bit <<< j).getLsbD n = (decide (n = j) && decide (lvl = .high)) := by
  cases lvl with
  | low => simp [Level.bit]
  | high =>
    have hiff : (j < 8 ∧ j = n) ↔ n = j := by omega
    rw [Level.bit, ← BitVec.twoPow_eq, BitVec.getLsbD_twoPow, ← Bool.decide_and]
    simp [hiff]

/-- R49: the bit read in slot `i` is ORed in at position `7 - i`. -/
theorem placeBit_getLsbD (acc : Byte) (lvl : Level) (i : Nat) {n : Nat} (hn : n < 8) :
    (placeBit acc lvl i).getLsbD n = (acc.getLsbD n || (decide (n = 7 - i) && decide (lvl = .high))) := by
  rw [placeBit, BitVec.getLsbD_or, bit_shiftLeft_getLsbD lvl hn]

/-- After `m` slots, the position of a slot already read holds its bit, and the position of a later one holds 0. -/
theorem accAfter_getLsbD (lvls : Nat → Level) {m i : Nat} (hm : m ≤ 8) (hi : i < 8) :
    (accAfter lvls m).getLsbD (7 - i) = (decide (i < m) && decide (lvls (2 + 3 * i) = .high)) := by
  induction m with
  | zero => simp [accAfter]
  | succ m ih =>
    rw [accAfter, placeBit_getLsbD _ _ _ (by omega), ih (by omega)]
    obtain hlt | rfl | hgt := Nat.lt_trichotomy i m
    · have hpos : 7 - i ≠ 7 - m := by omega
      simp [hpos, hlt, Nat.lt_succ_of_lt hlt]
    · simp
    · have hpos : 7 - i ≠ 7 - m := by omega
      simp [hpos, hgt.not_gt, hgt.not_ge]

/-! ### The word of a SHIFT_OUT -/

/-- R62: the opcode map's row of SHIFT_OUT starts at `0x100`. -/
theorem encode_shiftOut (v : Byte) : encode (.shiftOut v) = BitVec.ofNat 10 (0x100 + v.toNat) := by
  revert v; decide

/-- R64: a word's two fields determine its instruction. -/
theorem decode_encode_shiftOut (v : Byte) : decode (encode (.shiftOut v)) = .shiftOut v := by
  obtain ⟨hop, hdata, -⟩ := Laws.Encoding.shiftOut v
  rw [decode, hop, hdata]
  exact if_pos rfl

/-! ### The statements -/

/-- Settles O7, by the two answers to a write and the rules of `drv[L] <- v`. -/
theorem lineWriteRecordsItsOutcome : Obligations.LineWriteRecordsItsOutcome := fun L lvl s =>
  ⟨fun _ h => lineWrite_ok L lvl h, lineWrite_fail L lvl, fun v => ⟨s.drv.get_set_self L v, fun _ => s.drv.get_set_ne v⟩⟩

/-- Settles O8: the entry of a read records nothing in `drv`. -/
theorem lineReadChangesNoLine : Obligations.LineReadChangesNoLine := lineRead_eq

/-- Settles O9: each primitive performed uses up one answer. -/
theorem anyAnswersCanCome : Obligations.AnyAnswersCanCome := by
  intro s as j h
  have hj : ({ s with answers := as } : State).answerAt j = as[j] := State.answerAt_of_lt h
  refine ⟨hj, ?_⟩
  rintro es rfl
  rw [State.nextAnswer_eq, State.answerAt_performAll, Nat.add_zero, hj]

/-- Settles O17: all eight slots have been read. -/
theorem firstBitReadLandsInBitSeven : Obligations.FirstBitReadLandsInBitSeven := by
  intro lvls i hi
  rw [accAfter_getLsbD lvls (Nat.le_refl 8) hi, decide_eq_true hi, Bool.true_and]

/-- Settles O44: the byte handed over is the value modulo 256. -/
theorem hostLayerMasksWideValues : Obligations.HostLayerMasksWideValues := by
  refine fun value => ⟨?_, ?_⟩
  · rw [hostShiftOut, encode_shiftOut, trunc8, BitVec.toNat_ofNat]
  · rintro w ⟨⟩
    exact decode_encode_shiftOut (trunc8 value)

end Sys2Proof.Machine

/-!
The family "Encoding": the two fields of a command word and its instruction determine each other (R61 to R64, R69), the opcode map
has one row per word (R62), every command reaches one response of its kind (R65 to R68, R131, R143), and the assembler's words
(R71).
-/
namespace Sys2Proof.Machine

/-! ### Fields, instructions and rows -/

/-- The word of any instruction carries its two fields and lies in its row. -/
theorem encode_fields (i : Instr) : Laws.Encoding.Statement i := by
  cases i with
  | shiftOut v => exact Laws.Encoding.shiftOut v
  | shiftIn d => exact Laws.Encoding.shiftIn d
  | reserved00 d => exact Laws.Encoding.reserved00 d
  | reserved11 d => exact Laws.Encoding.reserved11 d

/-- R64: a word's two fields determine its instruction. -/
theorem decode_eq_of_fields {w : Word10} {i : Instr} (hop : opField w = i.op) (hdata : dataField w = i.data) : decode w = i := by
  rw [decode, hop, hdata]
  cases i <;> rfl

theorem decode_encode (i : Instr) : decode (encode i) = i :=
  decode_eq_of_fields (encode_fields i).1 (encode_fields i).2.1

/-- The decoder drops neither field (R63, R69). -/
theorem decode_op_data (w : Word10) : (decode w).op = opField w ∧ (decode w).data = dataField w := by
  have hcases : ∀ x : BitVec 2, x = 0b01#2 ∨ x = 0b10#2 ∨ x = 0b00#2 ∨ x = 0b11#2 := by decide
  rcases hcases (opField w) with h | h | h | h <;> rw [decode, h] <;> exact ⟨rfl, rfl⟩

/-- R61: a command word is its two fields, one after the other. -/
theorem opField_append_dataField (w : Word10) : opField w ++ dataField w = w :=
  BitVec.extractLsb'_append_extractLsb' (w := 2) (len := 8)

theorem encode_decode (w : Word10) : encode (decode w) = w := by
  obtain ⟨hop, hdata⟩ := decode_op_data w
  rw [encode, hop, hdata, opField_append_dataField]

theorem row_mem_opcodeTable (i : Instr) : i.row ∈ opcodeTable := by
  cases i <;> simp [Instr.row, opcodeTable]

/-- R62: the rows have one mask and different patterns, so no two of them cover one word. -/
theorem opcodeRow_unique {r r' : OpcodeRow} (hr : r ∈ opcodeTable) (hr' : r' ∈ opcodeTable) {w : Word10}
    (hw : r.covers w = true) (hw' : r'.covers w = true) : r = r' := by
  have hmask : ∀ q ∈ opcodeTable, q.mask = 0x300 := by decide
  have hpattern : ∀ q ∈ opcodeTable, ∀ q' ∈ opcodeTable, q.pattern = q'.pattern → q = q' := by decide
  rw [OpcodeRow.covers, hmask r hr, beq_iff_eq] at hw
  rw [OpcodeRow.covers, hmask r' hr', beq_iff_eq] at hw'
  exact hpattern r hr r' hr' (hw.symm.trans hw')

/-- R62: a word lies in the row of the instruction it decodes to. -/
theorem row_decode_covers (w : Word10) : (decode w).row.covers w = true := by
  obtain ⟨-, -, hrow⟩ := encode_fields (decode w)
  rwa [encode_decode] at hrow

/-! ### Numbers as words -/

theorem decodeNumber_of_lt {w : Nat} (h : w < 1024) : decodeNumber w = .ok (decode (BitVec.ofNat 10 w)) := if_pos h

theorem decodeNumber_of_le {w : Nat} (h : 1024 ≤ w) : decodeNumber w = .error (.widerThanTenBits w) := if_neg h.not_gt

theorem decodeTableWord_of_lt {w : Nat} (h : w < 1024) (n : Nat) : decodeTableWord n w = some (decode (BitVec.ofNat 10 w)) := by
  rw [decodeTableWord, decodeNumber_of_lt h]

theorem decodeTableWord_of_le {w : Nat} (h : 1024 ≤ w) (n : Nat) : decodeTableWord n w = none := by
  rw [decodeTableWord, decodeNumber_of_le h]

/-! ### Commands -/

/-- R65: while a session exists, no instruction has a step. -/
theorem exec_busy {s : State} {σ : Session} (hs : s.session = some σ) (i : Instr) : exec i s = .fault .hostHeld := by
  cases i <;> exact accept_busy hs _

/-- R63, R68: where `OP` is not SHIFT_OUT's, the meaning is a function of `OP` alone. -/
theorem exec_of_op_ne {i : Instr} (hi : i.op ≠ 0b01#2) (s : State) :
    exec i s = accept s (if i.op = 0b10#2 then runCommand (.shiftIn (Config.freeAcc s.draws)) else illegalCommand) := by
  cases i with
  | shiftOut v => exact absurd rfl hi
  | shiftIn d => rfl
  | reserved00 d => rfl
  | reserved11 d => rfl

/-- R68: the response to a reserved word is the only change. -/
theorem illegalCommand_eq {s : State} (hs : s.session = none) :
    illegalCommand s = { s with responses := s.responses ++ [0x200#10] } := by
  rw [illegalCommand, respond, ← State.eq_setSession hs]
  rfl

/-- R68: a reserved word is a command of no primitive. -/
theorem illegalCommand_eq_afterCommand (s : State) :
    illegalCommand s = s.afterCommand [] (responseWord .illegalCommand 0x00) := respond_performAll s _ _ []

/-- R66: the response to a SHIFT_OUT or a SHIFT_IN is OK, with data for a SHIFT_IN only, or LINE_ERROR without data; at most the
main sequence and two recovery writes precede it (R143). -/
theorem runCommand_response (r : SessionRegs) (s : State) :
    ∃ es st b, runCommand r s = s.afterCommand es (responseWord st b) ∧ es.length ≤ r.last + 2 ∧
      (st = .ok ∧ (b ≠ 0x00 → r.engine = .deserializer) ∨ st = .lineError ∧ b = 0x00) := by
  simp only [← respond_performAll]
  cases r with
  | shiftOut v =>
    rcases s.oks_or_fails 35 with h | ⟨n, hn, h⟩
    · exact ⟨_, _, _, runCommand_out_ok v h, by simp [okEntriesOut_length, SessionRegs.last, lastOut],
        .inl ⟨rfl, fun hb => absurd rfl hb⟩⟩
    · refine ⟨_, _, _, runCommand_out_fail v hn h, ?_, .inr ⟨rfl, rfl⟩⟩
      simp [okEntriesOut_length, failTail, SessionRegs.last, lastOut]; omega
  | shiftIn acc =>
    rcases s.oks_or_fails 26 with h | ⟨n, hn, h⟩
    · exact ⟨_, _, _, runCommand_in_ok acc h, by simp [okEntriesIn_length, SessionRegs.last, lastIn],
        .inl ⟨rfl, fun _ => rfl⟩⟩
    · refine ⟨_, _, _, runCommand_in_fail acc hn h, ?_, .inr ⟨rfl, rfl⟩⟩
      simp [okEntriesIn_length, failTail, SessionRegs.last, lastIn]; omega

/-- The most primitives that an instruction performs before its response: its main sequence and two recovery writes (R143), or
none (R68). -/
def maxPrimitivesOf : Instr → Nat
  | .shiftOut _ => 37
  | .shiftIn _ => 28
  | .reserved00 _ => 0
  | .reserved11 _ => 0

/-- The responses that R67, R68 and R131 allow an instruction. -/
def ResponseFits (i : Instr) (st : Status) (b : Byte) : Prop :=
  (b ≠ 0x00 → st = .ok ∧ ∃ d, i = .shiftIn d) ∧
    (st = .illegalCommand ↔ (∃ d, i = .reserved00 d) ∨ ∃ d, i = .reserved11 d)

/-- Where no session exists, every instruction performs so many primitives at the most, hands over one response of its kind, and
leaves no session (R64 to R68). -/
theorem exec_response {s : State} (hs : s.session = none) (i : Instr) :
    ∃ es st b, exec i s = .next (s.afterCommand es (responseWord st b)) ∧ es.length ≤ maxPrimitivesOf i ∧
      ResponseFits i st b := by
  cases i with
  | shiftOut v =>
    obtain ⟨es, st, b, hrun, hlen, hst⟩ := runCommand_response (.shiftOut v) s
    refine ⟨es, st, b, (accept_idle hs _).trans (congrArg _ hrun), hlen, ?_⟩
    rcases hst with ⟨rfl, hb⟩ | ⟨rfl, rfl⟩
    · exact ⟨fun h => absurd (hb h) Engine.noConfusion, by simp⟩
    · exact ⟨fun h => absurd rfl h, by simp⟩
  | shiftIn d =>
    obtain ⟨es, st, b, hrun, hlen, hst⟩ := runCommand_response (.shiftIn (Config.freeAcc s.draws)) s
    refine ⟨es, st, b, (accept_idle hs _).trans (congrArg _ hrun), hlen, ?_⟩
    rcases hst with ⟨rfl, -⟩ | ⟨rfl, rfl⟩
    · exact ⟨fun _ => ⟨rfl, d, rfl⟩, by simp⟩
    · exact ⟨fun h => absurd rfl h, by simp⟩
  | reserved00 d =>
    exact ⟨[], _, _, (accept_idle hs _).trans (congrArg _ (illegalCommand_eq_afterCommand s)), Nat.le_refl 0,
      fun h => absurd rfl h, fun _ => .inl ⟨d, rfl⟩, fun _ => rfl⟩
  | reserved11 d =>
    exact ⟨[], _, _, (accept_idle hs _).trans (congrArg _ (illegalCommand_eq_afterCommand s)), Nat.le_refl 0,
      fun h => absurd rfl h, fun _ => .inr ⟨d, rfl⟩, fun _ => rfl⟩

/-- R66: the two fields of a response word are its status and its data. -/
theorem rspStatus_responseWord (st : Status) (b : Byte) : rspStatus (responseWord st b) = st.code :=
  BitVec.extractLsb'_append_eq_left

theorem rspData_responseWord (st : Status) (b : Byte) : rspData (responseWord st b) = b :=
  BitVec.extractLsb'_append_eq_right

/-- R66: `0b11` is no status. -/
theorem statusCode_ne_three (st : Status) : st.code ≠ 0b11#2 := by cases st <;> decide

/-- R66, R131: ILLEGAL_COMMAND is the status `0b10`. -/
theorem statusCode_eq_two_iff (st : Status) : st.code = 0b10#2 ↔ st = .illegalCommand := by cases st <;> decide

/-! ### Steps -/

/-- A session run to its response is gone (R65). -/
theorem finishSession_session {s : State} {σ : Session} (hs : s.session = some σ) (hw : σ.WF) :
    (finishSession s).session = none := by
  obtain ⟨es, rsp, h, -⟩ := finishSession_cases hs hw
  rw [h]; rfl

/-- R65: an open session holds the host, and the step runs it to its response. -/
theorem step_open {s : State} {σ : Session} (hs : s.session = some σ) : step s = .next (finishSession s) := by
  simp only [step, hs]

/-- R64, R65: the host's next word is decoded and performed. -/
theorem step_issue {s : State} {w : Word10} {rest : List HostOp} (hs : s.session = none) (hh : s.host = .issue w :: rest) :
    step s = exec (decode w) { s with host := rest } := by
  simp only [step, hs, hostIssue, hh]

/-- With no session open, a step leaves none: the host's act does not open one, and a command closes its own (R65). -/
theorem step_idle {s : State} (hs : s.session = none) : ∃ t, step s = .next t ∧ t.session = none := by
  have hissue : (hostIssue s).2.session = none := by rw [hostIssue_frame]; exact hs
  simp only [step, hs]
  split
  next i s' hi =>
    rw [hi] at hissue
    obtain ⟨es, st, b, hexec, -⟩ := exec_response hissue i
    exact ⟨_, hexec, rfl⟩
  next s' hi =>
    rw [hi] at hissue
    exact ⟨s', rfl, hissue⟩

/-! ### The assembler -/

/-- R71: `0x100 | imm8` is SHIFT_OUT's word. -/
theorem encode_shiftOut_ofNat {imm : Nat} (h : imm < 256) :
    encode (.shiftOut (BitVec.ofNat 8 imm)) = 0x100#10 ||| BitVec.ofNat 10 imm := by
  rw [encode_shiftOut, BitVec.toNat_ofNat, Nat.mod_eq_of_lt h, ← BitVec.ofNat_or]
  exact congrArg _ (Nat.two_pow_add_eq_or_of_lt (i := 8) h 1)

/-- R71: a `;` starts a comment. -/
theorem asmCode_append_comment (line comment : List Char) : asmCode (line ++ ';' :: comment) = asmCode line := by
  induction line with
  | nil => rfl
  | cons c cs ih =>
    rw [asmCode, asmCode] at ih
    rw [asmCode, asmCode, List.cons_append, List.takeWhile_cons, List.takeWhile_cons, ih]

/-! ### The statements -/

/-- Settles O2: the two fields determine word and instruction, and only one row covers a word. -/
theorem decodeAndEncodeAgree : Obligations.DecodeAndEncodeAgree := by
  refine ⟨decode_encode, encode_decode, fun w => ⟨row_mem_opcodeTable _, fun r hr => ⟨fun hw => ?_, ?_⟩⟩⟩
  · exact opcodeRow_unique hr (row_mem_opcodeTable _) hw (row_decode_covers w)
  · rintro rfl
    exact row_decode_covers w

/-- Settles O47: an open session is run to its response, and with none open none is left. -/
theorem everyStepGoesOn : Obligations.EveryStepGoesOn := by
  intro s
  cases hs : s.session with
  | some σ => exact ⟨_, step_open hs, fun hw => finishSession_session hs (hw σ rfl)⟩
  | none =>
    obtain ⟨t, ht, hnone⟩ := step_idle hs
    exact ⟨t, ht, fun _ => hnone⟩

/-- Settles O28, by the response of each instruction. -/
theorem everyCommandResponds : Obligations.EveryCommandResponds := by
  intro i s hs
  obtain ⟨es, st, b, hexec, hlen, -⟩ := exec_response hs i
  refine ⟨_, es, _, hexec, rfl, rfl, rfl, hlen.trans ?_, ?_⟩
  · cases i <;> simp [maxPrimitivesOf]
  · rintro ⟨d, rfl⟩
    exact hlen

/-- Settles O29, by the response of each instruction. -/
theorem responsesAreWellFormed : Obligations.ResponsesAreWellFormed := by
  intro i s t ht
  obtain ⟨es, st, b, hexec, -, hdata, hillegal⟩ := exec_response (exec_next_idle ht) i
  rw [hexec] at ht
  cases ht
  refine ⟨_, rfl, ?_⟩
  rw [rspStatus_responseWord, rspData_responseWord, statusCode_eq_two_iff]
  refine ⟨statusCode_ne_three st, fun hb => ?_, hillegal⟩
  obtain ⟨rfl, hin⟩ := hdata hb
  exact ⟨rfl, hin⟩

/-- Settles O41: the trace counts the sequencer's primitives, and each is of the session's engine. -/
theorem stepFinishesAnOpenSession : Obligations.StepFinishesAnOpenSession := by
  intro s σ hs hw
  obtain ⟨es, rsp, hfinish, hengine⟩ := finishSession_cases hs hw
  obtain ⟨n, hn, hiter, hopen⟩ := runSession_iterate maxPrimitives s
  have hend : tick^[n] s = s.afterCommand es rsp := hiter.symm.trans hfinish
  have hlen : es.length = n := by
    have htrace := iterate_tick_trace_length n s hopen
    rw [hend] at htrace
    simpa [State.afterCommand] using htrace
  have hpos : n ≠ 0 := by
    rintro rfl
    rw [show s = s.afterCommand es rsp from hend] at hs
    cases hs
  refine ⟨n, es, rsp, (step_open hs).trans (congrArg _ hiter), Nat.pos_of_ne_zero hpos, hn, hopen, ?_⟩
  rw [hend]
  exact ⟨rfl, rfl, rfl, hlen, hengine, rfl⟩

/-- Settles O1: each word is the encoding of its instruction. -/
theorem writtenWordsDecode : Obligations.WrittenWordsDecode :=
  ⟨decode_encode (.shiftOut 0xB0), decode_encode (.shiftOut 0xFF), decode_encode (.shiftIn 0x00), decode_encode (.shiftIn 0xFF),
    decode_encode (.reserved00 0x00), decode_encode (.reserved00 0xFF), decode_encode (.reserved11 0x00),
    decode_encode (.reserved11 0xAA)⟩

/-- Settles O3: the decoder on numbers splits at 1024. -/
theorem onlyTenBitWordsAreCommands : Obligations.OnlyTenBitWordsAreCommands :=
  ⟨fun _ => decodeNumber_of_lt, fun _ => decodeNumber_of_le, fun n _ h => decodeTableWord_of_lt h n,
    fun n _ h => decodeTableWord_of_le h n⟩

/-- Settles O4: a word's `OP` is its instruction's, and only SHIFT_OUT looks at the data field. -/
theorem operandAssembly : Obligations.OperandAssembly := by
  refine ⟨fun w hop => decode_eq_of_fields hop rfl, fun w w' s hop hne => ?_, fun d => ⟨?_, (encode_fields (.shiftIn d)).1⟩⟩
  · rw [← (decode_op_data w).1] at hop hne
    rw [← (decode_op_data w').1] at hop
    rw [exec_of_op_ne hne, exec_of_op_ne (hop ▸ hne), hop]
  · rw [Instr.canonical]
    decide

/-- Settles O5: an accepted command opens a session at its first primitive and runs it. -/
theorem acceptanceCreatesTheSession : Obligations.AcceptanceCreatesTheSession := fun s hs =>
  ⟨fun v => ⟨⟨.shiftOut v, 1, 1, none⟩, rfl, rfl, rfl, accept_idle hs _⟩,
    fun _ => ⟨⟨.shiftIn (Config.freeAcc s.draws), 1, 1, none⟩, _, rfl, rfl, rfl, accept_idle hs _⟩⟩

/-- Settles O25: an accepted reserved word only responds. -/
theorem reservedWordsRespondIllegal : Obligations.ReservedWordsRespondIllegal := by
  intro d s hs
  rw [← illegalCommand_eq hs]
  exact ⟨accept_idle hs _, accept_idle hs _⟩

/-- Settles O26: a reserved word that has a next state only responds. -/
theorem reservedFrame : Obligations.ReservedFrame := by
  intro d s t ht
  have hs : s.session = none := ht.elim exec_next_idle exec_next_idle
  obtain ⟨h00, h11⟩ := reservedWordsRespondIllegal d s hs
  rw [h00, h11, or_self] at ht
  cases ht
  exact ⟨rfl, rfl, rfl, rfl, rfl, rfl, _, rfl⟩

/-- Settles O27: acceptance needs that no session exists. -/
theorem noCommandWhileASessionExists : Obligations.NoCommandWhileASessionExists := fun i _ _ hs => exec_busy hs i

/-- Settles O37: reset holds no session, and a command that finds none completes. -/
theorem resetAcceptsEveryCommand : Obligations.ResetAcceptsEveryCommand := by
  intro init i
  obtain ⟨es, st, b, hexec, -⟩ := exec_response (s := State.resetWith init) rfl i
  exact ⟨rfl, _, hexec, rfl⟩

/-- Settles O39: a placed word is the host's next act, with no session in its way. -/
theorem stepRunsTheIssuedCommand : Obligations.StepRunsTheIssuedCommand := by
  refine ⟨fun s w rest => step_issue, fun s n w i hi => ?_⟩
  obtain hw | hw := Nat.lt_or_ge w 1024
  · rw [decodeTableWord_of_lt hw, Option.some_inj] at hi
    rw [State.withFetchWord, placeCommand, if_pos hw, step_issue rfl rfl, hi]
  · rw [decodeTableWord_of_le hw] at hi
    cases hi

/-- Settles O45: an operand within its range is encoded, a wider one refused, and a comment is no code. -/
theorem assemblerEncodesOrRefuses : Obligations.AssemblerEncodesOrRefuses := by
  refine ⟨fun imm h => ?_, fun imm h => ?_, rfl, fun imm h => ?_, fun line comment => ?_⟩
  · rw [encode_shiftOut_ofNat h]
    exact if_pos (decide_eq_true h)
  · exact if_neg (by simpa [AsmLine.wf] using h)
  · exact if_pos (decide_eq_true h)
  · rw [asmRead, asmRead, asmCode_append_comment]

end Sys2Proof.Machine

/-!
The family "Shift out": the main sequences place by place (R81, R101), the trace of a SHIFT_OUT slot by slot, its clock pulses and
its loopback reading (R50, R59, R85), what a SHIFT_OUT performs and leaves unchanged (R82, R86), and the program counter (R26).
-/
namespace Sys2Proof.Machine

/-! ### The slots of the main sequences -/

/-- Slot `i` of `seq_out(V)` (R81). -/
def outSlotPrims (v : Byte) (i : Nat) : List Prim :=
  [.write .soClk .low, .write .soData (valueLevel v i), .write .soClk .high, .write .soData .low]

/-- Each slot of `seq_in` (R101). -/
def inSlotPrims : List Prim := [.write .siClk .high, .read, .write .siClk .low]

theorem outSlot_slot {i j : Nat} (hj : j < 4) : outSlot (2 + 4 * i + j) = i := by unfold outSlot; omega

theorem inSlot_slot {i j : Nat} (hj : j < 3) : inSlot (2 + 3 * i + j) = i := by unfold inSlot; omega

/-- Place `j` of slot `i` is primitive `k = 2 + 4i + j` (R81, R26). -/
theorem seqOut_slot (v : Byte) {i j k : Nat} (hi : i < 8) (hj : j < 4) (hk : k = 2 + 4 * i + j) :
    seqOut v k = (outSlotPrims v i)[j]'hj := by
  subst hk
  rw [seqOut, if_neg (by omega), if_pos (by omega), outSlot_slot hj, show (2 + 4 * i + j - 2) % 4 = j by omega]
  interval_cases j <;> rfl

/-- Place `j` of slot `i` is primitive `k = 2 + 3i + j` (R101, R26). -/
theorem seqIn_slot {i j k : Nat} (hi : i < 8) (hj : j < 3) (hk : k = 2 + 3 * i + j) : seqIn k = inSlotPrims[j]'hj := by
  subst hk
  rw [seqIn, if_neg (by omega), if_pos (by omega), show (2 + 3 * i + j - 2) % 3 = j by omega]
  interval_cases j <;> rfl

/-- R26: `I` is `i` throughout slot `i` of SHIFT_OUT. -/
theorem bitIndex_shiftOut (v : Byte) {i j : Nat} (hi : i < 8) (hj : j < 4) (rk : Nat) (err : Option Nat) :
    Session.bitIndex ⟨.shiftOut v, 2 + 4 * i + j, rk, err⟩ = some i :=
  (if_pos (by simp only; omega)).trans (congrArg some (outSlot_slot hj))

/-- R26: `I` is `i` throughout slot `i` of SHIFT_IN. -/
theorem bitIndex_shiftIn (acc : Byte) {i j : Nat} (hi : i < 8) (hj : j < 3) (rk : Nat) (err : Option Nat) :
    Session.bitIndex ⟨.shiftIn acc, 2 + 3 * i + j, rk, err⟩ = some i :=
  (if_pos (by simp only; omega)).trans (congrArg some (inSlot_slot hj))

/-! ### The fault-free trace of a SHIFT_OUT, slot by slot -/

/-- The entries of slot `i` when its four writes answer `ok` (R81, R11). -/
def outSlotEntries (v : Byte) (i : Nat) : List TraceEntry := okEntries (outSlotPrims v i) fun _ => .low

/-- The entries of SHIFT_OUT's last two writes when they answer `ok` (R81, R11). -/
def outClosing : List TraceEntry := [.write .soClk .low .ok, .write .soLatch .high .ok]

/-- The fault-free trace is the assertion, the eight slots and the closing writes; no read's level is in it (R81). -/
theorem okEntries_outSeq (v : Byte) (lvls : Nat → Level) : okEntries (outSeq v) lvls =
    .write .soLatch .low .ok :: ((List.range 8).flatMap (outSlotEntries v) ++ outClosing) := rfl

theorem okEntriesOut_all (v : Byte) (lvls : Nat → Level) : okEntriesOut v 35 = okEntries (outSeq v) lvls :=
  okEntriesOut_eq v lvls (Nat.le_refl 35)

/-- The lines after a slot: the data line reset, the clock left high (R81). -/
def Drv.afterOutSlot (d : Drv) : Drv := { d with soData := .low, soClk := .high }

theorem Drv.replay_outSlotEntries (d : Drv) (v : Byte) (i : Nat) : d.replay (outSlotEntries v i) = d.afterOutSlot := rfl

/-- Any slots leave the lines as one does. -/
theorem Drv.replay_outSlots (d : Drv) (v : Byte) (i : Nat) (is : List Nat) :
    d.replay ((i :: is).flatMap (outSlotEntries v)) = d.afterOutSlot := by
  induction is generalizing d i with
  | nil => rw [List.flatMap_cons, List.flatMap_nil, List.append_nil, Drv.replay_outSlotEntries]
  | cons j is ih => rw [List.flatMap_cons, Drv.replay_append, Drv.replay_outSlotEntries, ih]; rfl

/-- The lines after a fault-free SHIFT_OUT (R83). -/
theorem Drv.replay_outSeq (d : Drv) (v : Byte) (lvls : Nat → Level) :
    d.replay (okEntries (outSeq v) lvls) = { d with soData := .low, soClk := .low, soLatch := .high } := by
  rw [okEntries_outSeq, Drv.replay_cons, Drv.replay_append, List.range_succ_eq_map, Drv.replay_outSlots]
  rfl

/-! ### Clock pulses -/

/-- Whatever the clock was, a slot gives one pulse: it writes the clock low, then high (R50, R81). -/
theorem clockPulses_outSlotEntries (v : Byte) (i : Nat) (d : Drv) (es : List TraceEntry) :
    clockPulses .soClk d (outSlotEntries v i ++ es) = 1 + clockPulses .soClk d.afterOutSlot es := by
  simp [outSlotEntries, outSlotPrims, okEntries, okEntry, clockPulses, Drv.record, Drv.set, Drv.get, Drv.afterOutSlot,
    Driven.ofLevel]

/-- One pulse for each slot, and none at the closing writes. -/
theorem clockPulses_outSlots (v : Byte) (is : List Nat) (d : Drv) :
    clockPulses .soClk d (is.flatMap (outSlotEntries v) ++ outClosing) = is.length := by
  induction is generalizing d with
  | nil => simp [outClosing, clockPulses]
  | cons i is ih => rw [List.flatMap_cons, List.append_assoc, clockPulses_outSlotEntries, ih, List.length_cons, Nat.add_comm]

/-- R85: eight pulses from any levels; the assertion of the latch-enable gives none. -/
theorem clockPulses_outSeq (v : Byte) (lvls : Nat → Level) (d : Drv) :
    clockPulses .soClk d (okEntries (outSeq v) lvls) = 8 := by
  rw [okEntries_outSeq, clockPulses, clockPulses_outSlots, if_neg (by simp), List.length_range]

/-! ### The loopback reading -/

/-- A slot's rising edge samples its bit; the data line is then reset and the clock left high (R59, R81). -/
theorem decodeOutFrom_outSlotEntries (v : Byte) (i : Nat) (d : Option Driven) (clk : Option Level) (es : List TraceEntry) :
    decodeOutFrom d clk (outSlotEntries v i ++ es) =
      some (.ofLevel (valueLevel v i)) :: decodeOutFrom (some .low) (some .high) es := by
  simp [outSlotEntries, outSlotPrims, okEntries, okEntry, decodeOutFrom, Driven.ofLevel]

theorem decodeOutFrom_outSlots (v : Byte) (is : List Nat) (d : Option Driven) (clk : Option Level) :
    decodeOutFrom d clk (is.flatMap (outSlotEntries v) ++ outClosing) = is.map fun i => some (.ofLevel (valueLevel v i)) := by
  induction is generalizing d clk with
  | nil => rfl
  | cons i is ih => rw [List.flatMap_cons, List.append_assoc, decodeOutFrom_outSlotEntries, ih, List.map_cons]

/-- R85, R59: the levels sampled are `V[0]` to `V[7]`. -/
theorem decodeOut_outSeq (v : Byte) (lvls : Nat → Level) :
    decodeOut (okEntries (outSeq v) lvls) = (List.range 8).map fun i => some (.ofLevel (valueLevel v i)) :=
  decodeOutFrom_outSlots v (List.range 8) none none

theorem lsbFirstValue_bit_cons (b : Bool) (bs : List (Option Driven)) :
    lsbFirstValue (some (.ofLevel (.ofBit b)) :: bs) = (lsbFirstValue bs).map (b.toNat + 2 * ·) := by
  cases b <;> simp [Level.ofBit, Driven.ofLevel, lsbFirstValue]

/-- The low `n` bits of a number, least significant first, sum to it modulo `2 ^ n`. -/
theorem lsbFirstValue_testBits (n x : Nat) :
    lsbFirstValue ((List.range n).map fun i => some (.ofLevel (.ofBit (x.testBit i)))) = some (x % 2 ^ n) := by
  induction n generalizing x with
  | zero => simp [lsbFirstValue, Nat.mod_one]
  | succ n ih =>
    simp only [List.range_succ_eq_map, List.map_cons, List.map_map, Function.comp_def, Nat.succ_eq_add_one,
      Nat.testBit_add_one, lsbFirstValue_bit_cons, ih, Option.map_some, Nat.toNat_testBit]
    rw [Nat.pow_succ', Nat.mod_mul, Nat.pow_zero, Nat.div_one]

/-- `Σ V[i] << i` is `V` (R48, R59). -/
theorem lsbFirstValue_valueLevels (v : Byte) :
    lsbFirstValue ((List.range 8).map fun i => some (.ofLevel (valueLevel v i))) = some v.toNat := by
  simp only [valueLevel, ← BitVec.testBit_toNat, lsbFirstValue_testBits, Nat.mod_eq_of_lt v.isLt]

/-! ### What a SHIFT_OUT does -/

/-- R82: a fault-free SHIFT_OUT performs `seq_out(V)` and responds `{OK, 0x00}`; `lvls` is read by no write. -/
theorem exec_shiftOut_ok (v : Byte) {s : State} (hs : s.session = none) (hok : s.OksFor 35) (lvls : Nat → Level) :
    exec (.shiftOut v) s = .next (s.afterCommand (okEntries (outSeq v) lvls) (responseWord .ok 0x00)) := by
  rw [← respond_performAll, ← okEntriesOut_all, ← runCommand_out_ok v hok]
  exact accept_idle hs _

theorem take_one_drop {α : Type} {l : List α} {n : Nat} {a : α} (h : l[n]? = some a) : (l.drop n).take 1 = [a] := by
  rw [List.take_one, List.head?_drop, h, Option.toList_some]

/-- The entries of a SHIFT_OUT whose primitive `n + 1` is the first to fail, as R81's list gives them (R132, R133, R134). -/
theorem okEntriesOut_append_failTail (v : Byte) (s : State) (lvls : Nat → Level) {n : Nat} (hn : n < 35) :
    okEntriesOut v n ++ failTail (.shiftOut v) n s =
      failEntries (outSeq v) lvls .serializer (n + 1) (s.answerAt (n + 1)) (s.answerAt (n + 2)) := by
  rw [failEntries, Nat.add_sub_cancel, take_one_drop (outSeq_getElem? v hn), ← okEntriesOut_eq v lvls hn.le, List.append_assoc]
  rfl

/-- R82, R133: at its first failure a SHIFT_OUT stops, recovers and responds `{LINE_ERROR, 0x00}`. -/
theorem exec_shiftOut_fail (v : Byte) {s : State} (hs : s.session = none) {n : Nat} (hn : n < 35) (hfail : s.FailsAfter n)
    (lvls : Nat → Level) : exec (.shiftOut v) s = .next (s.afterCommand
      (failEntries (outSeq v) lvls .serializer (n + 1) (s.answerAt (n + 1)) (s.answerAt (n + 2)))
      (responseWord .lineError 0x00)) := by
  rw [← okEntriesOut_append_failTail v s lvls hn, ← respond_performAll, ← runCommand_out_fail v hn hfail]
  exact accept_idle hs _

/-! ### The statements -/

/-- Settles O10, by the two ends of a SHIFT_OUT and the lines its sequence leaves. -/
theorem shiftOutRunsItsSequence : Obligations.ShiftOutRunsItsSequence := by
  refine fun v s hs => ⟨fun hok => ?_, fun k h1 hk hfail => ?_⟩
  · rw [exec_shiftOut_ok v hs hok s.levelAt, State.afterCommand, Drv.replay_outSeq, okEntries_length]
    rfl
  · obtain ⟨n, rfl⟩ : ∃ n, k = n + 1 := ⟨k - 1, (Nat.sub_add_cancel h1).symm⟩
    exact exec_shiftOut_fail v hs hk hfail s.levelAt

/-- Settles O12: one pulse and one sample for each slot, between the two writes of the latch-enable. -/
theorem shiftOutHasEightPulses : Obligations.ShiftOutHasEightPulses := by
  intro v s t hs hok ht
  rw [exec_shiftOut_ok v hs hok s.levelAt] at ht
  cases ht
  refine ⟨_, rfl, clockPulses_outSeq v _ s.drv, rfl, ?_, decodeOut_outSeq v _⟩
  rw [okEntries_outSeq, ← List.cons_append, List.getLast?_append]
  rfl

/-- Settles O13: the loopback reading is `V`'s bits, which sum to `V`. -/
theorem loopbackReconstructsTheValue : Obligations.LoopbackReconstructsTheValue := by
  refine fun v s hs hok => ⟨_, _, exec_shiftOut_ok v hs hok s.levelAt, rfl, ?_⟩
  rw [decodeOut_outSeq, lsbFirstValue_valueLevels, List.length_map, List.length_range]
  exact ⟨rfl, rfl⟩

/-- Settles O14: the entries of a fault-free SHIFT_OUT are those of `seq_out(V)` in either state. -/
theorem shiftOutTraceDependsOnValueOnly : Obligations.ShiftOutTraceDependsOnValueOnly := fun v _ _ hs hok hs' hok' =>
  ⟨_, _, _, exec_shiftOut_ok v hs hok _, exec_shiftOut_ok v hs' hok' _, rfl, rfl, rfl⟩

/-- Settles O15: whatever is answered, a SHIFT_OUT performs at most 37 primitives, all of the serializer, and responds. -/
theorem shiftOutFrame : Obligations.ShiftOutFrame := by
  intro v s t ht
  rw [show exec (.shiftOut v) s = _ from accept_idle (exec_next_idle ht) _] at ht
  obtain ⟨es, st, b, hrun, hengine, -, hlen⟩ := runCommand_cases (.shiftOut v) s
  rw [hrun, respond_performAll] at ht
  cases ht
  exact ⟨rfl, rfl, Drv.replay_other (L := .siClk) hengine Engine.noConfusion,
    Drv.replay_other (L := .siLatch) hengine Engine.noConfusion, ⟨_, rfl⟩, es, rfl, rfl, rfl, rfl, hlen, hengine⟩

/-- Settles O32: the sequencer performs the primitive, then advances `k` or, after the last, responds OK. -/
theorem programCounterAdvancesByOne : Obligations.ProgramCounterAdvancesByOne := by
  rintro s ⟨r, k, rk, err⟩ lvl hs hw rfl ha
  obtain ⟨r', hr', ht⟩ := tick_main_ok ha r k rk
  rw [← State.eq_setSession hs] at ht
  have hlast := SessionRegs.last_eq hr'
  obtain ⟨-, hk, -⟩ := hw
  obtain hlt | heq := Nat.lt_or_eq_of_le hk
  · rw [advance_next (hlast ▸ hlt)] at ht
    rw [ht]
    exact ⟨rfl, fun _ => ⟨_, rfl, rfl, rfl, rfl, rfl⟩, fun h => absurd h hlt.ne⟩
  · rw [advance_last (hlast.trans heq.symm).le] at ht
    obtain ⟨b, hb, -⟩ := respondOk_cases ⟨r', k, rk, none⟩
      ((s.perform (okEntry (r.prim k) lvl)).setSession (some ⟨r, k, rk, none⟩))
    rw [ht, hb]
    exact ⟨rfl, fun h => absurd heq h.ne, fun _ => ⟨rfl, _, rfl, rspStatus_responseWord .ok b⟩⟩

/-- Settles O6, by the places of each slot. -/
theorem sequencesAreTheTables : Obligations.SequencesAreTheTables := by
  refine ⟨fun v => ⟨rfl, rfl, rfl, fun i hi => ?_⟩, rfl, rfl, fun i hi => ?_⟩
  · have hplace {j k : Nat} (hj : j < 4) (hk : k = 2 + 4 * i + j) := seqOut_slot v hi hj hk
    exact ⟨hplace (j := 0) (by decide) rfl, hplace (j := 1) (by decide) (by omega), hplace (j := 2) (by decide) (by omega),
      hplace (j := 3) (by decide) (by omega), fun j rk err hj => bitIndex_shiftOut v hi hj rk err⟩
  · have hplace {j k : Nat} (hj : j < 3) (hk : k = 2 + 3 * i + j) := seqIn_slot hi hj hk
    exact ⟨hplace (j := 0) (by decide) rfl, hplace (j := 1) (by decide) (by omega), hplace (j := 2) (by decide) (by omega),
      fun acc j rk err hj => bitIndex_shiftIn acc hi hj rk err⟩

end Sys2Proof.Machine

/-!
The family "Shift in": the fault-free trace of a SHIFT_IN slot by slot and its clock pulses (R101, R50, R111), what a SHIFT_IN
performs and leaves unchanged (R102), the raw accumulator as a number (R103), and the transform's value and bits (R104, R105).
-/
namespace Sys2Proof.Machine

/-! ### The fault-free trace of a SHIFT_IN, slot by slot -/

/-- The entries of a slot whose read returns `lvl`, when its three primitives answer `ok` (R101, R11). -/
def inSlotEntries (lvl : Level) : List TraceEntry := okEntries inSlotPrims fun _ => lvl

/-- The levels read in the eight slots, the first one first (R101). -/
def slotLevels (lvls : Nat → Level) : List Level := (List.range 8).map fun i => lvls (2 + 3 * i)

/-- The fault-free trace is the assertion, the eight slots and the de-assertion (R101). -/
theorem okEntries_inSeq (lvls : Nat → Level) : okEntries inSeq lvls =
    .write .siLatch .high .ok :: ((slotLevels lvls).flatMap inSlotEntries ++ [.write .siLatch .low .ok]) := rfl

theorem okEntriesIn_all (lvls : Nat → Level) : okEntriesIn lvls 26 = okEntries inSeq lvls :=
  okEntriesIn_eq lvls (Nat.le_refl 26)

/-- A slot leaves the clock low, and no other line changed; its read records nothing (R101, R45). -/
theorem Drv.replay_inSlotEntries (d : Drv) (lvl : Level) : d.replay (inSlotEntries lvl) = { d with siClk := .low } := rfl

/-- Any slots leave the lines as one does. -/
theorem Drv.replay_inSlots (d : Drv) (lvl : Level) (ls : List Level) :
    d.replay ((lvl :: ls).flatMap inSlotEntries) = { d with siClk := .low } := by
  induction ls generalizing d lvl with
  | nil => rw [List.flatMap_cons, List.flatMap_nil, List.append_nil, Drv.replay_inSlotEntries]
  | cons l ls ih => rw [List.flatMap_cons, Drv.replay_append, Drv.replay_inSlotEntries, ih]

/-- The lines after a fault-free SHIFT_IN (R102). -/
theorem Drv.replay_inSeq (d : Drv) (lvls : Nat → Level) :
    d.replay (okEntries inSeq lvls) = { d with siClk := .low, siLatch := .low } := by
  rw [okEntries_inSeq, Drv.replay_cons, Drv.replay_append, slotLevels, List.range_succ_eq_map, List.map_cons,
    Drv.replay_inSlots]
  rfl

/-! ### Clock pulses -/

/-- A slot writes the clock high, which is a pulse where it was low, and leaves it low (R50, R101). -/
theorem clockPulses_inSlotEntries (lvl : Level) (d : Drv) (es : List TraceEntry) :
    clockPulses .siClk d (inSlotEntries lvl ++ es) =
      (if d.siClk = .low then 1 else 0) + clockPulses .siClk { d with siClk := .low } es := by
  simp [inSlotEntries, inSlotPrims, okEntries, okEntry, clockPulses, Drv.record, Drv.set, Drv.get, Driven.ofLevel]

/-- One pulse for each slot from a low clock, and none at the de-assertion. -/
theorem clockPulses_inSlots (ls : List Level) {d : Drv} (hd : d.siClk = .low) :
    clockPulses .siClk d (ls.flatMap inSlotEntries ++ [.write .siLatch .low .ok]) = ls.length := by
  induction ls generalizing d with
  | nil => simp [clockPulses]
  | cons l ls ih =>
    rw [List.flatMap_cons, List.append_assoc, clockPulses_inSlotEntries, if_pos hd, ih rfl, List.length_cons, Nat.add_comm]

/-- R111: seven pulses from the later slots, and one from the first if the clock was low. -/
theorem clockPulses_inSeq (lvls : Nat → Level) (d : Drv) :
    clockPulses .siClk d (okEntries inSeq lvls) = if d.siClk = .low then 8 else 7 := by
  rw [okEntries_inSeq, clockPulses, if_neg (by simp), slotLevels, List.range_succ_eq_map, List.map_cons, List.flatMap_cons,
    List.append_assoc, clockPulses_inSlotEntries, clockPulses_inSlots _ rfl]
  change 0 + ((if d.siClk = .low then 1 else 0) + 7) = _
  split <;> rfl

/-! ### What a SHIFT_IN does -/

/-- R102: a fault-free SHIFT_IN performs `seq_in` and responds `{OK, xform(ACC)}`. -/
theorem exec_shiftIn_ok (data : Byte) {s : State} (hs : s.session = none) (hok : s.OksFor 26) :
    exec (.shiftIn data) s =
      .next (s.afterCommand (okEntries inSeq s.levelAt) (responseWord .ok (xform (accAfter s.levelAt 8)))) := by
  rw [← respond_performAll, ← okEntriesIn_all, ← runCommand_in_ok _ hok]
  exact accept_idle hs _

/-- The entries of a SHIFT_IN whose primitive `n + 1` is the first to fail, as R101's list gives them (R132, R133, R134). -/
theorem okEntriesIn_append_failTail (acc : Byte) (s : State) (lvls : Nat → Level) {n : Nat} (hn : n < 26) :
    okEntriesIn lvls n ++ failTail (.shiftIn acc) n s =
      failEntries inSeq lvls .deserializer (n + 1) (s.answerAt (n + 1)) (s.answerAt (n + 2)) := by
  rw [failEntries, Nat.add_sub_cancel, take_one_drop (inSeq_getElem? hn), ← okEntriesIn_eq lvls hn.le, List.append_assoc]
  rfl

/-- R102, R133: at its first failure, a write or a read, a SHIFT_IN stops, recovers and responds `{LINE_ERROR, 0x00}`. -/
theorem exec_shiftIn_fail (data : Byte) {s : State} (hs : s.session = none) {n : Nat} (hn : n < 26) (hfail : s.FailsAfter n) :
    exec (.shiftIn data) s = .next (s.afterCommand
      (failEntries inSeq s.levelAt .deserializer (n + 1) (s.answerAt (n + 1)) (s.answerAt (n + 2)))
      (responseWord .lineError 0x00)) := by
  rw [← okEntriesIn_append_failTail _ s _ hn, ← respond_performAll, ← runCommand_in_fail _ hn hfail]
  exact accept_idle hs _

/-- Whatever is answered, a command with a session performs primitives of its own engine, its main sequence and two recovery
writes at the most, and responds (R40, R65, R143). -/
theorem runCommand_eq_afterCommand (r : SessionRegs) (s : State) :
    ∃ es rsp, runCommand r s = s.afterCommand es rsp ∧ (∀ e ∈ es, e.engine = r.engine) ∧ es.length ≤ r.last + 2 := by
  obtain ⟨es, st, b, hrun, hengine, -⟩ := runCommand_cases r s
  obtain ⟨es', st', b', hrun', hlen, -⟩ := runCommand_response r s
  rw [respond_performAll] at hrun
  have hdraws : s.draws + es.length = s.draws + es'.length := congrArg State.draws (hrun.symm.trans hrun')
  exact ⟨es, _, hrun, hengine, by omega⟩

/-! ### The accumulator as a number -/

/-- A level's bit keeps its value in any position of the byte. -/
theorem toNat_bit_shiftLeft (lvl : Level) {i : Nat} (hi : i < 8) :
    (BitVec.ofNat 8 lvl.bit <<< (7 - i)).toNat = lvl.bit <<< (7 - i) := by
  revert i; cases lvl <;> decide

/-- A bit placed where the accumulator holds 0 is added: there is no carry (R103). -/
theorem placeBit_toNat {acc : Byte} (lvl : Level) {i : Nat} (hi : i < 8) (hacc : acc.getLsbD (7 - i) = false) :
    (placeBit acc lvl i).toNat = acc.toNat + lvl.bit <<< (7 - i) := by
  have hdisjoint : acc &&& (BitVec.ofNat 8 lvl.bit <<< (7 - i)) = 0#8 := by
    refine BitVec.eq_of_getLsbD_eq fun n hn => ?_
    rw [BitVec.getLsbD_and, bit_shiftLeft_getLsbD lvl hn, BitVec.getLsbD_zero]
    by_cases h : n = 7 - i
    · rw [h, hacc, Bool.false_and]
    · simp [h]
  rw [placeBit, ← BitVec.add_eq_or_of_and_eq_zero _ _ hdisjoint, BitVec.toNat_add_of_and_eq_zero hdisjoint,
    toNat_bit_shiftLeft lvl hi]

/-- The accumulator after `m` slots is the sum of the bits read so far: the place of the next bit still holds 0. -/
theorem accAfter_toNat (lvls : Nat → Level) {m : Nat} (hm : m ≤ 8) :
    (accAfter lvls m).toNat = ((List.range m).map fun i => (lvls (2 + 3 * i)).bit <<< (7 - i)).sum := by
  induction m with
  | zero => rfl
  | succ m ih =>
    have hfree : (accAfter lvls m).getLsbD (7 - m) = false := by simp [accAfter_getLsbD lvls (by omega : m ≤ 8) hm]
    rw [accAfter, placeBit_toNat _ hm hfree, ih (by omega), List.range_succ, List.map_append, List.sum_append]
    simp

/-! ### The transform -/

/-- R104's formula as a number: eleven bits hold `r << 3` whole. -/
theorem xform_toNat (r : Byte) : (xform r).toNat = ((r.toNat <<< 3) &&& 0xFF) ^^^ 0xFF := by
  have hr : r.toNat < 256 := r.isLt
  have hshift : (r.toNat <<< 3) % 2 ^ 11 = r.toNat <<< 3 := Nat.mod_eq_of_lt (by rw [Nat.shiftLeft_eq]; omega)
  have hand : ((r.toNat <<< 3) &&& 0xFF) % 2 ^ 8 = (r.toNat <<< 3) &&& 0xFF :=
    Nat.mod_eq_of_lt (Nat.and_lt_two_pow _ (by decide))
  rw [xform, BitVec.toNat_xor, BitVec.toNat_setWidth, BitVec.toNat_and, BitVec.toNat_shiftLeft,
    BitVec.toNat_setWidth_of_le (by decide), hshift]
  exact congrArg (· ^^^ 0xFF) hand

/-- R104: the XOR mask has no bit above bit 7, so truncating before or after the XOR is the same. -/
theorem and_xor_eq_xor_mod (n : Nat) : (n &&& 0xFF) ^^^ 0xFF = (n ^^^ 0xFF) % 256 :=
  calc (n &&& 0xFF) ^^^ 0xFF = n % 2 ^ 8 ^^^ 0xFF % 2 ^ 8 := by rw [← Nat.and_two_pow_sub_one_eq_mod n 8]
    _ = (n ^^^ 0xFF) % 2 ^ 8 := (Nat.xor_mod_two_pow).symm

/-- R105, bit by bit: the low three bits are 1, and the others are the inverses of the bits three places below. -/
theorem xform_getLsbD (r : Byte) {n : Nat} (hn : n < 8) : (xform r).getLsbD n = (decide (n < 3) || !r.getLsbD (n - 3)) := by
  rw [xform_eq_cfg, show Config.cfg.siInvert = BitVec.allOnes 8 from rfl, BitVec.xor_allOnes, BitVec.getLsbD_not,
    show Config.cfg.siAlign = 3 from rfl, BitVec.getLsbD_shiftLeft]
  simp [hn]

/-- R105: only the low five bits of the accumulator reach the value returned. -/
theorem xform_congr {r r' : Byte} (h : ∀ n < 5, r.getLsbD n = r'.getLsbD n) : xform r = xform r' := by
  refine BitVec.eq_of_getLsbD_eq fun n hn => ?_
  rw [xform_getLsbD r hn, xform_getLsbD r' hn, h (n - 3) (by omega)]

/-- R105: a byte whose low bits are `0b111` is the transform of its inverse, shifted back. -/
theorem xform_not_ushiftRight {x : Byte} (hx : x.extractLsb' 0 3 = 0b111#3) : xform (~~~x >>> 3) = x := by
  refine BitVec.eq_of_getLsbD_eq fun n hn => ?_
  rw [xform_getLsbD _ hn]
  by_cases h3 : n < 3
  · have hbit : (x.extractLsb' 0 3).getLsbD n = (BitVec.allOnes 3).getLsbD n := congrArg (BitVec.getLsbD · n) hx
    rw [BitVec.getLsbD_extractLsb', BitVec.getLsbD_allOnes, decide_eq_true h3, Bool.true_and, Nat.zero_add] at hbit
    rw [hbit, decide_eq_true h3, Bool.true_or]
  · have hpos : 3 + (n - 3) = n := by omega
    simp [h3, hpos, hn]

/-! ### The statements -/

/-- Settles O16, by the two ends of a SHIFT_IN and the lines its sequence leaves. -/
theorem shiftInRunsItsSequence : Obligations.ShiftInRunsItsSequence := by
  refine fun d s hs => ⟨fun hok => ?_, fun k h1 hk hfail => ?_⟩
  · rw [exec_shiftIn_ok d hs hok, State.afterCommand, Drv.replay_inSeq, okEntries_length]
    rfl
  · obtain ⟨n, rfl⟩ : ∃ n, k = n + 1 := ⟨k - 1, (Nat.sub_add_cancel h1).symm⟩
    exact exec_shiftIn_fail d hs hk hfail

/-- Settles O21: slots 3 to 7 hold the low five bits of the accumulator, the only ones that the transform keeps. -/
theorem firstThreeReadsAreDiscarded : Obligations.FirstThreeReadsAreDiscarded := by
  intro d s s' hs hok hs' hok' hagree
  have hxform : xform (accAfter s.levelAt 8) = xform (accAfter s'.levelAt 8) := by
    refine xform_congr fun n hn => ?_
    obtain ⟨i, h3, h8, rfl⟩ : ∃ i, 3 ≤ i ∧ i < 8 ∧ n = 7 - i := ⟨7 - n, by omega, by omega, by omega⟩
    rw [accAfter_getLsbD _ (Nat.le_refl 8) h8, accAfter_getLsbD _ (Nat.le_refl 8) h8, hagree i h3 h8]
  exact ⟨_, _, _, exec_shiftIn_ok d hs hok, exec_shiftIn_ok d hs' hok', rfl, by rw [hxform]; rfl⟩

/-- Settles O23, by the pulses of `seq_in`'s entries. -/
theorem shiftInPulseCount : Obligations.ShiftInPulseCount := fun d s hs hok =>
  ⟨_, _, exec_shiftIn_ok d hs hok, rfl, clockPulses_inSeq s.levelAt s.drv⟩

/-- Settles O24: whatever is answered, a SHIFT_IN performs at most 28 primitives, all of the deserializer, and responds. -/
theorem shiftInFrame : Obligations.ShiftInFrame := by
  intro d s t ht
  rw [show exec (.shiftIn d) s = _ from accept_idle (exec_next_idle ht) _] at ht
  obtain ⟨es, rsp, hrun, hengine, hlen⟩ := runCommand_eq_afterCommand (.shiftIn (Config.freeAcc s.draws)) s
  rw [hrun] at ht
  cases ht
  have hline {L : OutLine} (hL : L.engine ≠ .deserializer) : (s.drv.replay es).get L = s.drv.get L :=
    Drv.replay_other hengine hL
  exact ⟨rfl, rfl, hline (L := .soData) Engine.noConfusion, hline (L := .soClk) Engine.noConfusion,
    hline (L := .soLatch) Engine.noConfusion, ⟨rsp, rfl⟩, es, rfl, rfl, rfl, rfl, hlen, hengine⟩

/-- Settles O18: all eight slots have been read. -/
theorem accumulatorIsTheSumOfItsBits : Obligations.AccumulatorIsTheSumOfItsBits := fun lvls =>
  accAfter_toNat lvls (Nat.le_refl 8)

/-- Settles O19, by the formula as a number and the response of a fault-free SHIFT_IN. -/
theorem transformFormula : Obligations.TransformFormula := by
  refine ⟨fun r => ⟨xform_toNat r, (xform_toNat r).trans (and_xor_eq_xor_mod _)⟩, fun d s hs hok => ?_⟩
  refine ⟨_, _, exec_shiftIn_ok d hs hok, rfl, rspStatus_responseWord .ok _, ?_⟩
  rw [rspData_responseWord, xform_toNat]

/-- Settles O20, bit by bit. -/
theorem transformKeepsFiveInvertedBits : Obligations.TransformKeepsFiveInvertedBits := by
  refine ⟨fun r => ⟨?_, ?_⟩, fun x hx => ⟨_, xform_not_ushiftRight hx⟩⟩
  · refine BitVec.eq_of_getLsbD_eq fun n hn => ?_
    rw [BitVec.getLsbD_extractLsb', xform_getLsbD r (by omega), BitVec.getLsbD_extractLsb', BitVec.getLsbD_not]
    simp [show n < 8 by omega]
  · refine BitVec.eq_of_getLsbD_eq fun n hn => ?_
    rw [BitVec.getLsbD_extractLsb', xform_getLsbD r (by omega), show (0b111#3) = BitVec.allOnes 3 from rfl,
      BitVec.getLsbD_allOnes]
    simp [hn]

end Sys2Proof.Machine

/-!
The family "Host sequences": what the host issues at MIRROR and at the poll loop (R120, R121), that a step takes exactly the
host's act from what it has to do, and the two steps of a MIRROR (R121, R122; log 12).
-/
namespace Sys2Proof.Machine

/-! ### The words that MIRROR issues -/

/-- MIRROR's first word is the canonical SHIFT_IN (R121, R63). -/
theorem decode_mirrorReadWord : decode mirrorReadWord = .shiftIn 0x00 := decode_encode (.shiftIn 0x00)

/-- `0x100 | v` is the word of SHIFT_OUT `v` (R121, R63). -/
theorem encode_shiftOut_eq_or (v : Byte) : encode (.shiftOut v) = 0x100#10 ||| v.setWidth 10 := by
  have h := encode_shiftOut_ofNat v.isLt
  rwa [BitVec.ofNat_toNat, BitVec.ofNat_toNat, BitVec.setWidth_eq] at h

/-- R66, R131: no other status has the code of OK. -/
theorem statusCode_eq_ok_iff (st : Status) : st.code = Status.code .ok ↔ st = .ok := by cases st <;> decide

/-- R121: the response OK gives the SHIFT_OUT of the byte it carries. -/
theorem mirrorWriteWord_ok (b : Byte) : mirrorWriteWord (responseWord .ok b) = some (encode (.shiftOut b)) := by
  rw [mirrorWriteWord, rspStatus_responseWord, if_pos rfl, rspData_responseWord, encode_shiftOut_eq_or]

/-- R121: no other response gives a word. -/
theorem mirrorWriteWord_of_ne_ok {st : Status} (hst : st ≠ .ok) (b : Byte) : mirrorWriteWord (responseWord st b) = none := by
  rw [mirrorWriteWord, rspStatus_responseWord, if_neg (mt (statusCode_eq_ok_iff st).mp hst)]

/-! ### The host's acts as steps -/

section
variable {s : State} {rest : List HostOp} (hs : s.session = none)
include hs

/-- R121: the first step of a MIRROR is its SHIFT_IN. -/
theorem step_mirror (hh : s.host = .mirror :: rest) :
    step s = exec (.shiftIn 0x00) { s with host := .mirrorWrite :: rest } := by
  simp only [step, hs, hostIssue, hh, decode_mirrorReadWord]

/-- R120: the first step of the poll loop is that of a MIRROR with the loop after it. -/
theorem step_pollLoop (hh : s.host = .pollLoop :: rest) :
    step s = exec (.shiftIn 0x00) { s with host := .mirrorWrite :: .pollLoop :: rest } := by
  simp only [step, hs, hostIssue, hh, decode_mirrorReadWord]

/-- R121: after the response OK, the second step of a MIRROR is the SHIFT_OUT of the byte read. -/
theorem step_mirrorWrite_ok (hh : s.host = .mirrorWrite :: rest) {rs : List Word10} {b : Byte}
    (hr : s.responses = rs ++ [responseWord .ok b]) : step s = exec (.shiftOut b) { s with host := rest } := by
  simp only [step, hs, hostIssue, hh, hr, List.getLast?_concat, Option.bind_some, mirrorWriteWord_ok, Option.map_some,
    decode_encode]

/-- R121: after any other response, the second step issues nothing. -/
theorem step_mirrorWrite_of_ne_ok (hh : s.host = .mirrorWrite :: rest) {rs : List Word10} {st : Status} {b : Byte}
    (hst : st ≠ .ok) (hr : s.responses = rs ++ [responseWord st b]) : step s = .next { s with host := rest } := by
  simp only [step, hs, hostIssue, hh, hr, List.getLast?_concat, Option.bind_some, mirrorWriteWord_of_ne_ok hst, Option.map_none]

end

/-- No command changes what the host has to do (R65). -/
theorem exec_next_host {i : Instr} {s t : State} (ht : exec i s = .next t) : t.host = s.host := by
  obtain ⟨es, st, b, hexec, -⟩ := exec_response (exec_next_idle ht) i
  rw [hexec] at ht
  cases ht
  rfl

/-- With no session open, a step takes the host's act, and nothing else, from what the host has to do (R65, R122). -/
theorem step_next_host {s t : State} (hs : s.session = none) (ht : step s = .next t) : t.host = (hostIssue s).2.host := by
  simp only [step, hs] at ht
  split at ht
  next i s' hi => rw [hi]; exact exec_next_host ht
  next s' hi => rw [hi]; cases ht; rfl

/-! ### The statements -/

/-- Settles O42: the response to the SHIFT_IN, which the second step looks at, is the last one. -/
theorem mirrorIsReadThenWrite : Obligations.MirrorIsReadThenWrite := by
  intro s rest hs hh
  refine ⟨step_mirror hs hh, fun hok => ?_, fun n hn hfail => ?_⟩
  · have hread := exec_shiftIn_ok 0x00 (s := { s with host := .mirrorWrite :: rest }) hs hok
    exact ⟨_, (step_mirror hs hh).trans hread, rfl, rfl, step_mirrorWrite_ok rfl rfl rfl⟩
  · have hread := exec_shiftIn_fail 0x00 (s := { s with host := .mirrorWrite :: rest }) hs hn hfail
    exact ⟨_, (step_mirror hs hh).trans hread, rfl, step_mirrorWrite_of_ne_ok rfl rfl Status.noConfusion rfl⟩

/-- Settles O43: the loop's two steps are those of a MIRROR with the loop after it; neither stops, and the second leaves the host
at the loop. -/
theorem pollLoopRepeats : Obligations.PollLoopRepeats := by
  intro s rest hs hh
  have hmirror : step s = step { s with host := .mirror :: .pollLoop :: rest } :=
    (step_pollLoop hs hh).trans (step_mirror (s := { s with host := .mirror :: .pollLoop :: rest }) hs rfl).symm
  obtain ⟨-, hok, hfail⟩ := mirrorIsReadThenWrite { s with host := .mirror :: .pollLoop :: rest } (.pollLoop :: rest) hs rfl
  rw [← hmirror] at hok hfail
  obtain ⟨t, ht, htnone⟩ := step_idle hs
  obtain ⟨u, hu, hunone⟩ := step_idle htnone
  have hthost : t.host = .mirrorWrite :: .pollLoop :: rest := by rw [step_next_host hs ht, hostIssue, hh]
  have huhost : u.host = .pollLoop :: rest := by rw [step_next_host htnone hu, hostIssue, hthost]
  refine ⟨hmirror, step_pollLoop hs hh, t, u, ht, hu, hunone, huhost, fun h => ?_, fun n hn h => ?_⟩
  · obtain ⟨t', ht', -, -, hwrite⟩ := hok h
    cases ht.symm.trans ht'
    exact hu.symm.trans hwrite
  · obtain ⟨t', ht', -, hskip⟩ := hfail n hn h
    cases ht.symm.trans ht'
    cases hu.symm.trans hskip
    rfl

end Sys2Proof.Machine

/-!
The family "Exceptions": what the two recovery writes leave on the lines (R44, R134, R136), the two steps of the sequencer that
perform them (R135, R137), a LineError at the primitive that failed (R132, R133), and the lines after a command that failed.
-/
namespace Sys2Proof.Machine

/-! ### The lines after the recovery writes -/

/-- Both clocks idle low (R20, R30). -/
theorem Engine.clk_idle (e : Engine) : e.clk.idle = .low := by cases e <;> rfl

/-- The data line of the serializer is neither a clock nor a latch-enable (R20). -/
theorem Engine.soData_ne (e : Engine) : .soData ≠ e.clk ∧ .soData ≠ e.latch := by cases e <;> decide

/-- R44: a write leaves on its line what the backend's answer says. -/
theorem Drv.record_write_get_self (d : Drv) (L : OutLine) (lvl : Level) (a : Answer) :
    (d.record (.write L lvl (answerResult a))).get L = drivenAfter a lvl := by
  cases a with
  | ok lvl' => exact d.get_set_self L _
  | fail => exact d.get_set_self L _

section
variable (d : Drv) (e : Engine) (a1 a2 : Answer)

/-- R134, R136: the clock is low, or `X` where its write failed; the write of the latch-enable, after it, does not touch it. -/
theorem Drv.replay_recovery_clk :
    (d.replay [recoveryEntry e 1 a1, recoveryEntry e 2 a2]).get e.clk = drivenAfter a1 .low := by
  rw [Drv.replay_cons, Drv.replay_cons, Drv.replay_nil, recoveryEntry_latch,
    Drv.record_write_get_ne _ _ _ (Engine.clk_ne_latch e), recoveryEntry_clk, Drv.record_write_get_self, Engine.clk_idle]

/-- R134, R136: the latch-enable is idle, or `X` where its write failed. -/
theorem Drv.replay_recovery_latch :
    (d.replay [recoveryEntry e 1 a1, recoveryEntry e 2 a2]).get e.latch = drivenAfter a2 e.latch.idle := by
  rw [Drv.replay_cons, Drv.replay_cons, Drv.replay_nil, recoveryEntry_latch, Drv.record_write_get_self]

/-- R24: the recovery writes no data line. -/
theorem Drv.replay_recovery_soData :
    (d.replay [recoveryEntry e 1 a1, recoveryEntry e 2 a2]).soData = d.soData := by
  obtain ⟨hclk, hlatch⟩ := Engine.soData_ne e
  rw [recoveryEntry_clk, recoveryEntry_latch]
  exact (Drv.record_write_get_ne _ _ _ hlatch).trans (d.record_write_get_ne _ _ hclk)

variable (ps : List Prim) (lvls : Nat → Level) (k : Nat)

/-- Whatever a command performed up to its failure, its recovery fixes the clock (R134, R136). -/
theorem Drv.replay_failEntries_clk : (d.replay (failEntries ps lvls e k a1 a2)).get e.clk = drivenAfter a1 .low := by
  rw [failEntries, Drv.replay_append, Drv.replay_recovery_clk]

/-- Whatever a command performed up to its failure, its recovery fixes the latch-enable (R134, R136). -/
theorem Drv.replay_failEntries_latch :
    (d.replay (failEntries ps lvls e k a1 a2)).get e.latch = drivenAfter a2 e.latch.idle := by
  rw [failEntries, Drv.replay_append, Drv.replay_recovery_latch]

end

/-! ### The sequencer at a LineError and in its recovery -/

/-- R134, R135, R137: the two steps of a recovery, whatever is answered. -/
theorem tick_tick_recovery {s : State} {σ : Session} {k : Nat} (hs : s.session = some σ) (he : σ.err = some k)
    (hrk : σ.rk = 1) : tick (tick s) = respond .lineError 0x00
      (s.performAll [recoveryEntry σ.regs.engine 1 (s.answerAt 0), recoveryEntry σ.regs.engine 2 (s.answerAt 1)]) := by
  obtain ⟨r, k', rk, err⟩ := σ
  subst he hrk
  have hfirst := tick_recovery (s := s) (σ := ⟨r, k', 1, some k⟩) rfl
  rw [← State.eq_setSession hs, if_pos (Nat.lt_succ_self 1)] at hfirst
  rw [hfirst, tick_recovery rfl, if_neg (Nat.lt_irrefl 2), State.answerAt_perform]
  rfl

/-- R132, R133: a primitive that fails is recorded, and the LineError raised at it. -/
theorem tick_fail {s : State} {σ : Session} (hs : s.session = some σ) (he : σ.err = none) (ha : s.answerAt 0 = .fail) :
    tick s = raiseLineError σ (s.perform (failEntry (σ.regs.prim σ.k))) := by
  rw [← tick_main_fail he ha, ← State.eq_setSession hs]

/-- R133, R134: the two steps after the one that failed are those of the recovery. -/
theorem tick_tick_tick_fail {s : State} {σ : Session} (hs : s.session = some σ) (he : σ.err = none)
    (ha : s.answerAt 0 = .fail) : tick (tick (tick s)) = respond .lineError 0x00
      (s.performAll [failEntry (σ.regs.prim σ.k), recoveryEntry σ.regs.engine 1 (s.answerAt 1),
        recoveryEntry σ.regs.engine 2 (s.answerAt 2)]) := by
  rw [tick_fail hs he ha, raiseLineError, tick_tick_recovery (State.setSession_session _ _) rfl rfl]
  rw [State.performAll_setSession, respond_setSession, State.answerAt_setSession, State.answerAt_setSession,
    State.answerAt_perform, State.answerAt_perform]
  rfl

/-! ### The statements -/

/-- Settles O11, by the last two entries of the command and, for the other engine's lines, what a SHIFT_OUT leaves unchanged. -/
theorem shiftOutFailureRestoresIdle : Obligations.ShiftOutFailureRestoresIdle := by
  intro v s k hs h1 hk hfail
  have hexec := (shiftOutRunsItsSequence v s hs).2 k h1 hk hfail
  obtain ⟨-, -, hsiClk, hsiLatch, -⟩ := shiftOutFrame v s _ hexec
  exact ⟨_, hexec, s.drv.replay_failEntries_clk .serializer _ _ _ _ _, s.drv.replay_failEntries_latch .serializer _ _ _ _ _,
    hsiClk, hsiLatch⟩

/-- Settles O22, by the last two entries of the command and, for the other engine's lines, what a SHIFT_IN leaves unchanged. -/
theorem shiftInFailureRestoresIdle : Obligations.ShiftInFailureRestoresIdle := by
  intro d s k hs h1 hk hfail
  have hexec := (shiftInRunsItsSequence d s hs).2 k h1 hk hfail
  obtain ⟨-, -, hsoData, hsoClk, hsoLatch, -⟩ := shiftInFrame d s _ hexec
  exact ⟨_, hexec, s.drv.replay_failEntries_clk .deserializer _ _ _ _ _,
    s.drv.replay_failEntries_latch .deserializer _ _ _ _ _, hsoData, hsoClk, hsoLatch⟩

/-- Settles O33, by the step that raises the LineError and the two of its recovery. -/
theorem lineErrorIsPrecise : Obligations.LineErrorIsPrecise := by
  intro s σ hs he ha
  rw [tick_tick_tick_fail hs he ha, tick_fail hs he ha]
  refine ⟨rfl, rfl, rfl, fun L lvl hwrite => ?_, fun hread => ?_, rfl, rfl, State.performAll_trace s _⟩
  · rw [hwrite]; rfl
  · rw [hread]; rfl

/-- Settles O34, by the two steps of the recovery and the lines that its entries leave. -/
theorem recoveryIsTwoWrites : Obligations.RecoveryIsTwoWrites := by
  intro s σ k hs he hrk
  rw [tick_tick_recovery hs he hrk]
  refine ⟨rfl, rfl, s.drv.replay_recovery_soData _ _ _, ?_, s.drv.replay_recovery_clk _ _ _,
    s.drv.replay_recovery_latch _ _ _⟩
  rw [respond_trace, State.performAll_trace, recoveryEntry_clk, recoveryEntry_latch, Engine.clk_idle]

end Sys2Proof.Machine

/-!
The family "Reset": the lines after reset, at any `INIT_LEVELS` and at the default (R150), and that the state after reset meets
the invariant, the base case of what every step keeps (R23, R151).
-/
namespace Sys2Proof.Machine

/-- R150: after reset each output line is recorded at its value of `INIT_LEVELS`. -/
@[simp] theorem State.resetWith_drv_get (init : OutLine → Driven) (L : OutLine) : (State.resetWith init).drv.get L = init L := by
  cases L <;> rfl

/-- R150: at the default `INIT_LEVELS` no line's level is fixed. -/
@[simp] theorem State.reset_drv_get (L : OutLine) : State.reset.drv.get L = .x := State.resetWith_drv_get Config.initLevels L

/-- R23, R151: no session is open after reset, and a line whose level is not fixed is at rest. -/
theorem State.reset_linesRest : State.reset.LinesRest :=
  (State.linesRest_of_session_none rfl).mpr fun e => ⟨.inr (State.reset_drv_get e.clk), .inr (State.reset_drv_get e.latch)⟩

/-! ### The statements -/

/-- Settles O36: the general clause line by line, the default as its instance. -/
theorem resetLevels : Obligations.ResetLevels := ⟨State.resetWith_drv_get, State.reset_drv_get⟩

/-- Settles O38: no session, no response and no trace entry exists yet, and every line is at rest because its level is `X`. -/
theorem resetMeetsTheInvariant : Obligations.ResetMeetsTheInvariant where
  session := fun _ hσ => by cases hσ
  responses := fun _ hr => by cases hr
  lines := State.reset_linesRest
  draws := rfl
  drv := (Drv.replay_nil _).symm

end Sys2Proof.Machine

/-!
The family "Other": that the backend's answers alone, and nothing of `drv`, decide what a command performs and responds (R22, R152),
and the step of a host with nothing to do (log 1).
-/
namespace Sys2Proof.Machine

/-! ### States with the same coming answers -/

/-- The coming answers are those listed, then the free values from the count of answers on (R46; log 2). -/
theorem State.answerAt_congr {s s' : State} (hanswers : s'.answers = s.answers) (hdraws : s'.draws = s.draws) :
    s'.answerAt = s.answerAt := by
  funext j
  simp only [State.answerAt, hanswers, hdraws]

section
variable {s s' : State} (ha : s'.answerAt = s.answerAt)
include ha

theorem State.levelAt_congr : s'.levelAt = s.levelAt := by
  funext j
  simp only [State.levelAt, ha]

theorem State.OksFor.congr {n : Nat} (h : s.OksFor n) : s'.OksFor n := fun j hj => ha ▸ h j hj

theorem State.FailsAfter.congr {n : Nat} (h : s.FailsAfter n) : s'.FailsAfter n := ⟨.congr ha h.1, ha ▸ h.2⟩

/-- R22: the primitives that a command performs and the response it gives are a function of the answers to come. -/
theorem exec_congr (hs : s.session = none) (hs' : s'.session = none) (i : Instr) :
    ∃ es rsp, exec i s = .next (s.afterCommand es rsp) ∧ exec i s' = .next (s'.afterCommand es rsp) := by
  cases i with
  | shiftOut v =>
    rcases s.oks_or_fails 35 with hok | ⟨n, hn, hfail⟩
    · exact ⟨_, _, exec_shiftOut_ok v hs hok s.levelAt, exec_shiftOut_ok v hs' (.congr ha hok) s.levelAt⟩
    · have hexec' := exec_shiftOut_fail v hs' hn (.congr ha hfail) s.levelAt
      rw [ha] at hexec'
      exact ⟨_, _, exec_shiftOut_fail v hs hn hfail s.levelAt, hexec'⟩
  | shiftIn d =>
    rcases s.oks_or_fails 26 with hok | ⟨n, hn, hfail⟩
    · have hexec' := exec_shiftIn_ok d hs' (.congr ha hok)
      rw [State.levelAt_congr ha] at hexec'
      exact ⟨_, _, exec_shiftIn_ok d hs hok, hexec'⟩
    · have hexec' := exec_shiftIn_fail d hs' hn (.congr ha hfail)
      rw [State.levelAt_congr ha, ha] at hexec'
      exact ⟨_, _, exec_shiftIn_fail d hs hn hfail, hexec'⟩
  | reserved00 _ | reserved11 _ =>
    exact ⟨[], _, (accept_idle hs _).trans (congrArg _ (illegalCommand_eq_afterCommand s)),
      (accept_idle hs' _).trans (congrArg _ (illegalCommand_eq_afterCommand s'))⟩

end

/-! ### A host with nothing to do -/

/-- R65, log 1: a host with nothing to do issues nothing, and its list is left as it is. -/
theorem hostIssue_nil {s : State} (hh : s.host = []) : hostIssue s = (none, s) := by
  simp only [hostIssue, hh]

/-! ### The statements -/

/-- Settles O30: the two states give the same answers, on which alone the entries and the response depend. -/
theorem noCommandReadsDrv : Obligations.NoCommandReadsDrv := by
  intro i s s' hs hs' hanswers hdraws
  obtain ⟨es, rsp, hexec, hexec'⟩ := exec_congr (State.answerAt_congr hanswers hdraws) hs hs' i
  exact ⟨_, _, es, rsp, hexec, hexec', rfl, rfl, rfl, rfl⟩

/-- Settles O40: no session is run, and the host's act is none. -/
theorem stepWithNothingToIssue : Obligations.StepWithNothingToIssue := by
  intro s hs hh
  simp only [step, hs, hostIssue_nil hh]

end Sys2Proof.Machine
